-- ==== Sys2Proof/Word.lean ====
section
/-! DEFINITION. The bit vectors of the block (spec/00_scope.md R9, R10): every register, operand and table entry is 32 bits, a
command word is 68 bits and a response word is 36 bits, each with bit 0 least significant. -/

namespace Sys2Proof

/-- A 32-bit register, operand or table entry (R9). -/
abbrev Word := BitVec 32

/-- The command word `CW[67:0]` (spec/30_encoding.md R40). -/
abbrev CommandWord := BitVec 68

/-- The response word `RSP[35:0]` (spec/30_encoding.md R44). -/
abbrev Response := BitVec 36

end Sys2Proof
end

