-- ==== Sys2Proof/Syntax.lean ====
section
/-! DEFINITION. The command set NCO-CMD version 1 (spec/30_encoding.md R41, R43, R47): one constructor per row of
spec/opcode_table.json, carrying the operands that are significant in its format and nothing else. -/

namespace Sys2Proof

/-- One command. Format `Z` carries nothing, `FR` carries `f` and `r`, `F` carries `f`, `R` carries `r`, `X` carries `idx`
(R41); ignored fields (R42) are no part of a command. -/
inductive Instr where
  /-- `NOP`, op `0x0` (R85). -/
  | nop
  /-- `INIT f, r`, op `0x1` (R74). -/
  | init (f r : Word)
  /-- `SAMPLE`, op `0x2` (R77). -/
  | sample
  /-- `SETF f`, op `0x3` (R79). -/
  | setf (f : Word)
  /-- `SETR r`, op `0x4` (R80). -/
  | setr (r : Word)
  /-- `RSTP`, op `0x5` (R81). -/
  | rstp
  /-- `GETF`, op `0x6` (R82). -/
  | getf
  /-- `GETR`, op `0x7` (R83). -/
  | getr
  /-- `LOOKUP idx`, op `0x8` (R59). -/
  | lookup (idx : Word)
  /-- `GETP`, op `0x9` (R86). -/
  | getp
  /-- `GETD`, op `0xA` (R87). -/
  | getd
  /-- `GETS`, op `0xB` (R88). -/
  | gets
  /-- The table's `RESERVED` row: a word whose `op` is `0xC` to `0xF` (R47). It selects no command and is rejected. The
  opcode is kept so that an illegal word can be told from another; no rule looks at it (DESIGN CHOICE, log 11). -/
  | reserved (op : BitVec 4)
  deriving DecidableEq, Repr

end Sys2Proof
end

