-- ==== Sys2Proof/WellFormed.lean ====
section
/-! DEFINITION. Which terms of `Instr` some command word decodes to. The only restriction is R47: the reserved opcodes are
`0xC` to `0xF`; every 32-bit operand is legal as an operand (R46). -/

namespace Sys2Proof

/-- A command that some 68-bit word stands for: the opcode carried by `reserved` is one of the reserved ones (R47). -/
def Instr.wellFormed : Instr → Bool
  | .reserved op => 0xC#4 ≤ op
  | .nop | .init _ _ | .sample | .setf _ | .setr _ | .rstp | .getf | .getr | .lookup _ | .getp | .getd | .gets => true

end Sys2Proof
end

