-- ==== Sys2Proof/Decode.lean ====
section
/-! DEFINITION. Command words to commands and back (spec/30_encoding.md R40 to R43, R46, R47, R49). `decode` is total on the
68-bit words, since the thirteen patterns of the opcode table cover all of them (R43, R48); what has another length is no
command word and is rejected by name. -/

namespace Sys2Proof

/-- The field `op`, bits 67:64 (R40). -/
def opField (cw : CommandWord) : BitVec 4 := cw.extractLsb' 64 4

/-- The field `a`, bits 63:32 (R40), taken verbatim (R46). -/
def aField (cw : CommandWord) : Word := cw.extractLsb' 32 32

/-- The field `b`, bits 31:0 (R40), taken verbatim (R46). -/
def bField (cw : CommandWord) : Word := cw.extractLsb' 0 32

/-- The opcode map (R43, R47). `f` always sits in `a`; `r` and `idx` always sit in `b` (R41); ignored fields are not looked
at (R42). -/
def decode (cw : CommandWord) : Instr :=
  match (opField cw).toNat with
  | 0 => .nop
  | 1 => .init (aField cw) (bField cw)
  | 2 => .sample
  | 3 => .setf (aField cw)
  | 4 => .setr (bField cw)
  | 5 => .rstp
  | 6 => .getf
  | 7 => .getr
  | 8 => .lookup (bField cw)
  | 9 => .getp
  | 10 => .getd
  | 11 => .gets
  | _ => .reserved (opField cw)

/-- The opcode of a command (R43; for `reserved`, R47). -/
def opcode : Instr → BitVec 4
  | .nop => 0x0#4
  | .init _ _ => 0x1#4
  | .sample => 0x2#4
  | .setf _ => 0x3#4
  | .setr _ => 0x4#4
  | .rstp => 0x5#4
  | .getf => 0x6#4
  | .getr => 0x7#4
  | .lookup _ => 0x8#4
  | .getp => 0x9#4
  | .getd => 0xA#4
  | .gets => 0xB#4
  | .reserved op => op

/-- The word `{op, a, b}` (R40). -/
def packCommand (op : BitVec 4) (a b : Word) : CommandWord := op ++ a ++ b

/-- The canonical word of a command: zeros in the ignored fields (R42). -/
def encode (i : Instr) : CommandWord :=
  match i with
  | .init f r => packCommand (opcode i) f r
  | .setf f => packCommand (opcode i) f 0
  | .setr r => packCommand (opcode i) 0 r
  | .lookup idx => packCommand (opcode i) 0 idx
  | .nop | .sample | .rstp | .getf | .getr | .getp | .getd | .gets | .reserved _ => packCommand (opcode i) 0 0

/-- Why a string of bits is no command. -/
inductive DecodeError where
  /-- A bit above bit 67 is 1: no command word has it, since a command is 68 bits of one fixed length (R40, R49). -/
  | notACommandWord
  deriving DecidableEq, Repr

/-- Decode a number of `nbits` bits, bit 0 least significant, the bits above `nbits` being 0. -/
def decodeBits (nbits w : Nat) : Except DecodeError Instr :=
  if w % 2 ^ nbits < 2 ^ 68 then .ok (decode (BitVec.ofNat 68 (w % 2 ^ nbits))) else .error .notACommandWord

/-- The host's reading of one word of spec/opcode_table.json. -/
def decodeTableWord (nbits w : Nat) : Option Instr :=
  match decodeBits nbits w with
  | .ok i => some i
  | .error _ => none

end Sys2Proof
end

