-- ==== Sys2Proof/Machine/Operands.lean ====
section
/-! DEFINITION. The operand forms: how a 32-bit word is read as an IEEE 754 binary32 (spec/41_phase_increment.md R62, R63).
A table index operand is a plain unsigned integer (spec/30_encoding.md R46) and needs no reading. -/

namespace Sys2Proof.Machine

/-- The sign bit `s = w[31]` (R62). -/
def signBit (w : Word) : Bool := w.getLsbD 31

/-- The biased exponent `e = w[30:23]` (R62). -/
def exponentField (w : Word) : Nat := (w.extractLsb' 23 8).toNat

/-- The fraction `m = w[22:0]` (R62). -/
def fractionField (w : Word) : Nat := (w.extractLsb' 0 23).toNat

/-- The classes of R62's table. -/
inductive FloatClass where
  | zero
  | subnormal
  | normal
  | infinity
  | nan
  deriving DecidableEq, Repr

/-- The class of a word (R62). -/
def floatClass (w : Word) : FloatClass :=
  if exponentField w = 0 then (if fractionField w = 0 then .zero else .subnormal)
  else if exponentField w = 255 then (if fractionField w = 0 then .infinity else .nan)
  else .normal

/-- `finite(w)`: `w[30:23] != 255` (R63). -/
def finite (w : Word) : Bool := exponentField w != 255

/-- `positive(w)`: finite, sign bit 0, and `w[30:0]` not 0 (R63). -/
def positive (w : Word) : Bool := finite w && !signBit w && w.extractLsb' 0 31 != 0

/-- The significand `M` of a finite word, `0 <= M < 2^24` (R62). -/
def significand (w : Word) : Nat := if exponentField w = 0 then fractionField w else 2 ^ 23 + fractionField w

/-- The exponent `E` of a finite word: `-149` when `e = 0`, else `e - 150` (R62). -/
def exponent (w : Word) : Int := if exponentField w = 0 then -149 else (exponentField w : Int) - 150

/-- `val(w)` of a finite word, the exact rational `(-1)^s * M * 2^E` (R62). On an infinity or a NaN, which have no value, it
is a number no rule uses: `val?` says which words have a value (DESIGN CHOICE, log 17). -/
def val (w : Word) : ℚ := (if signBit w then -1 else 1) * (significand w : ℚ) * (2 : ℚ) ^ exponent w

/-- `val(w)` with R62's "none" for an infinity or a NaN. -/
def val? (w : Word) : Option ℚ := if finite w then some (val w) else none

end Sys2Proof.Machine
end

