-- ==== Sys2Proof/Machine/State.lean ====
section
/-! DEFINITION. The state of one block (spec/10_state.md R13): five 32-bit registers, and beside them the two ends of the command
port, which the spec makes the input and the output of a step (spec/00_scope.md R12) and a host's step, having no arguments,
must find in the state. -/

namespace Sys2Proof.Machine

/-- What the host does at the port, one entry per event (spec/30_encoding.md R52, R53; spec/70_reset_and_hazards.md R105, R107). -/
inductive HostInput where
  /-- The block accepts this command word (`cmd_valid` and `cmd_ready` both 1) and is left to answer it. -/
  | command (cw : CommandWord)
  /-- The block accepts this command word and `rst` is sampled high before its response is produced (R107; DESIGN CHOICE, log 8). -/
  | abandoned (cw : CommandWord)
  /-- `rst` is sampled high between two commands, for any number of cycles, and released (R105). -/
  | reset
  /-- A cycle with `cmd_valid = 0` (R53). -/
  | idle
  deriving DecidableEq, Repr

/-- The five causes a command is rejected for (spec/60_exceptions.md R90). The spec calls a rejection a fault; the machine goes
on after it, so it is a next state here and no `Fault` below (DEDUCED, log 13). -/
inductive Cause where
  /-- 1, `ILLEGAL_COMMAND` (R91). -/
  | illegalCommand
  /-- 2, `NOT_CONFIGURED` (R92). -/
  | notConfigured
  /-- 3, `BAD_SAMPLE_RATE` (R93). -/
  | badSampleRate
  /-- 4, `BAD_FREQUENCY` (R94). -/
  | badFrequency
  /-- 5, `INCREMENT_RANGE` (R95). -/
  | incrementRange
  deriving DecidableEq, Repr

/-- The reasons the machine stops with a fault: none. Every command word has an outcome after which the block goes on
(spec/30_encoding.md R48, spec/60_exceptions.md R96), so no constructor is needed and nobody raises one. -/
inductive Fault
  deriving DecidableEq, Repr

/-- The reasons an instruction has no meaning. -/
inductive Refusal where
  /-- Raised only by an arm of `exec` whose instruction has no meaning yet; no arm is such. Safe: the machine stops. -/
  | notModelled (mnemonic : String)
  deriving DecidableEq, Repr

/-- The state: R13's five registers, the host's inputs still to come (oldest first), and the responses produced so far (oldest
first; they are the result of a run, spec/70_reset_and_hazards.md R116). -/
structure State where
  /-- The phase accumulator (R14). -/
  phase : Word
  /-- The per-sample increment `delta_phase` (R15). -/
  deltaPhase : Word
  /-- The configured frequency, a binary32 bit pattern as given (R16). -/
  frequency : Word
  /-- The configured sample rate, a binary32 bit pattern as given (R17). -/
  sampleRate : Word
  /-- `STATUS` (R18). Bits 31:6 are hardwired 0: `readStatus` and `writeStatus` see to it (DEDUCED, log 5). -/
  status : Word
  /-- The model's own (DESIGN CHOICE, log 1): what the host presents at the port from here on. -/
  inputs : List HostInput
  /-- The model's own (DESIGN CHOICE, log 2): every response word the block has produced. -/
  responses : List Response
  deriving DecidableEq, Repr

/-- The machine right after hardware reset (R26): all five registers 0, nothing presented yet and nothing answered yet. -/
def State.reset : State where
  phase := 0x00000000#32
  deltaPhase := 0x00000000#32
  frequency := 0x00000000#32
  sampleRate := 0x00000000#32
  status := 0x00000000#32
  inputs := []
  responses := []

end Sys2Proof.Machine
end

