-- ==== Sys2Proof/Machine/Increment.lean ====
section
/-! DEFINITION. The phase increment computer (spec/41_phase_increment.md): the pure function `DPHI(f, r)`. -/

namespace Sys2Proof.Machine

/-- The exponent `k = Ef + 32 - Er` of R66; the 32 is `ROTATION = 2^32` (R64, spec/10_state.md R24). -/
def quotientExponent (f r : Word) : Int := exponent f + 32 - exponent r

/-- The numerator `N` of R66. -/
def quotientNum (f r : Word) : Nat := significand f * 2 ^ (quotientExponent f r).toNat

/-- The denominator `D` of R66. -/
def quotientDen (f r : Word) : Nat := significand r * 2 ^ (-quotientExponent f r).toNat

/-- `Q(f, r)`, the unbounded increment `floor(val(f) * 2^32 / val(r))` of R65 in the integer form of R66, for a finite `f` and
a positive `r` (DEDUCED, log 12). -/
def unboundedIncrement (f r : Word) : Int :=
  let t : Int := (quotientNum f r / quotientDen f r : Nat)
  let rem := quotientNum f r % quotientDen f r
  if !signBit f then t else if rem = 0 then -t else -t - 1

/-- `DPHI(f, r)` with its checks in R67's order (R68, R69, R70). Nothing is wrapped or saturated. -/
def dphi (f r : Word) : Except Cause Word :=
  if !positive r then .error .badSampleRate
  else if !finite f then .error .badFrequency
  else
    let q := unboundedIncrement f r
    if q < 0 ∨ 2 ^ 32 ≤ q then .error .incrementRange else .ok (BitVec.ofNat 32 q.toNat)

end Sys2Proof.Machine
end

