-- ==== Sys2Proof/Config.lean ====
section
/-! DEFINITION. What is fixed when an instance of the block is built and never changed by a command (spec/00_scope.md R6): the
bit depth `B` (R7) and the table `ROM` (R8). Both are left open by the spec (spec/92_eei_decisions.md D13, D14) up to named
properties, and so both are opaque here: nothing is known of them but those properties. -/

namespace Sys2Proof

/-- The two parameters (R6): `bitDepth` is `B`, and `rom k` is `ROM[k]` for `k < 2^B`. What `rom` gives at or above `2^B` is
read by nothing (DEDUCED, log 4). -/
structure Params where
  bitDepth : Nat
  rom : Nat → Word

/-- R7's check of the bit depth, without which no instance is built. -/
def Params.depthLegal (p : Params) : Bool := 1 ≤ p.bitDepth && p.bitDepth ≤ 31

open Machine in
/-- R55 for one word: it may stand at entry `k` of a table of `2^B` entries, being a finite binary32 within `2^-24` of
`S(k) = sin(2*pi*k / 2^B)` (R54). -/
def EntryAccurate (B k : Nat) (w : Word) : Prop :=
  finite w = true ∧ |((val w : ℚ) : ℝ) - Real.sin (2 * Real.pi * k / 2 ^ B)| ≤ 1 / 2 ^ 24

/-- What the spec lets one assume of an instance and nothing more: R7, R55, R56. -/
structure Params.Valid (p : Params) : Prop where
  depth_legal : p.depthLegal = true
  entries_accurate : ∀ k, k < 2 ^ p.bitDepth → EntryAccurate p.bitDepth k (p.rom k)
  entry_zero : p.rom 0 = 0x00000000#32

open Machine in
/-- `w` is the binary32 nearest to the real `x`, ties to even, exact zero as `+0` (the definition of R57's canonical entry). -/
def NearestEntry (x : ℝ) (w : Word) : Prop :=
  finite w = true ∧
  (∀ v, finite v = true → |((val w : ℚ) : ℝ) - x| ≤ |((val v : ℚ) : ℝ) - x|) ∧
  (∀ v, finite v = true → val v ≠ val w → |((val w : ℚ) : ℝ) - x| = |((val v : ℚ) : ℝ) - x| → w.getLsbD 0 = false) ∧
  (x = 0 → w = 0x00000000#32) ∧ (x < 0 → signBit w = true) ∧ (0 < x → signBit w = false)

/-- `ROM_c`, the canonical table for a given `B` (R57). -/
def Params.Canonical (p : Params) : Prop :=
  ∀ k : Nat, k < 2 ^ p.bitDepth → NearestEntry (Real.sin (2 * Real.pi * k / 2 ^ p.bitDepth)) (p.rom k)

/-- The whole canonical tables that R57 prints, for `B = 1` to `4`. -/
def canonicalTable : Nat → List Word
  | 1 => [0x00000000#32, 0x00000000#32]
  | 2 => [0x00000000#32, 0x3F800000#32, 0x00000000#32, 0xBF800000#32]
  | 3 => [0x00000000#32, 0x3F3504F3#32, 0x3F800000#32, 0x3F3504F3#32, 0x00000000#32, 0xBF3504F3#32, 0xBF800000#32, 0xBF3504F3#32]
  | 4 => [0x00000000#32, 0x3EC3EF15#32, 0x3F3504F3#32, 0x3F6C835E#32, 0x3F800000#32, 0x3F6C835E#32, 0x3F3504F3#32, 0x3EC3EF15#32,
          0x00000000#32, 0xBEC3EF15#32, 0xBF3504F3#32, 0xBF6C835E#32, 0xBF800000#32, 0xBF6C835E#32, 0xBF3504F3#32, 0xBEC3EF15#32]
  | _ => []

/-- The parameters of a canonical instance with one of the tables above. -/
def canonicalParams (B : Nat) : Params := ⟨B, fun k => (canonicalTable B).getD k 0⟩

/-- The selected entries of the canonical table for `B = 10` that R57 prints, index and word. -/
def canonicalSelected10 : List (Nat × Word) :=
  [(0, 0x00000000#32), (1, 0x3BC90F88#32), (2, 0x3C490E90#32), (8, 0x3D48FB30#32), (9, 0x3D621469#32), (10, 0x3D7B2B74#32),
   (17, 0x3DD53DB9#32), (18, 0x3DE1BC2E#32), (28, 0x3E2F10A2#32), (37, 0x3E667C66#32), (46, 0x3E8E9A22#32), (56, 0x3EAC7CD4#32),
   (65, 0x3EC6D529#32), (100, 0x3F13682A#32), (253, 0x3F7FF4E6#32), (255, 0x3F7FFEC4#32), (256, 0x3F800000#32),
   (257, 0x3F7FFEC4#32), (262, 0x3F7FD397#32), (506, 0x3D16C32C#32), (511, 0x3BC90F88#32), (512, 0x00000000#32),
   (513, 0xBBC90F88#32), (516, 0xBCC90AB0#32), (760, 0xBF7FB10F#32), (768, 0xBF800000#32), (769, 0xBF7FFEC4#32),
   (1004, 0xBDFAB273#32), (1013, 0xBD8A200A#32), (1023, 0xBBC90F88#32)]

/-- An instance that exists: parameters together with the proof of what the spec demands of them (R7: "an instance with `B`
outside `[1, 31]` does not exist: the model refuses to build it"). -/
abbrev Build := { p : Params // p.Valid }

open Machine in
/-- The canonical table for `B = 2` (R57) is an instance, so that there is one. -/
theorem canonicalParams_two_valid : (canonicalParams 2).Valid where
  depth_legal := by decide
  entry_zero := by decide
  entries_accurate := by
    have hz : val 0x00000000#32 = 0 := by
      rw [val, show significand 0x00000000#32 = 0 by decide]; norm_num
    have hp : val 0x3F800000#32 = 1 := by
      rw [val, show signBit 0x3F800000#32 = false by decide, show significand 0x3F800000#32 = 8388608 by decide,
        show exponent 0x3F800000#32 = -23 by decide]; norm_num
    have hn : val 0xBF800000#32 = -1 := by
      rw [val, show signBit 0xBF800000#32 = true by decide, show significand 0xBF800000#32 = 8388608 by decide,
        show exponent 0xBF800000#32 = -23 by decide]; norm_num
    intro k hk
    have hk' : k < 4 := by simpa [canonicalParams] using hk
    interval_cases k
    · refine ⟨by decide, ?_⟩
      norm_num [canonicalParams, canonicalTable, hz]
    · refine ⟨by decide, ?_⟩
      have : 2 * Real.pi * ((1 : ℕ) : ℝ) / 2 ^ 2 = Real.pi / 2 := by push_cast; ring
      simp only [canonicalParams, this, Real.sin_pi_div_two]
      norm_num [canonicalTable, hp]
    · refine ⟨by decide, ?_⟩
      have : 2 * Real.pi * ((2 : ℕ) : ℝ) / 2 ^ 2 = Real.pi := by push_cast; ring
      simp only [canonicalParams, this, Real.sin_pi]
      norm_num [canonicalTable, hz]
    · refine ⟨by decide, ?_⟩
      have : 2 * Real.pi * ((3 : ℕ) : ℝ) / 2 ^ 2 = Real.pi / 2 + Real.pi := by push_cast; ring
      simp only [canonicalParams, this, Real.sin_add_pi, Real.sin_pi_div_two]
      norm_num [canonicalTable, hn]

/-- The instance of this machine: one of the instances that exist, and nothing says which (D13, D14; DESIGN CHOICE, log 3). The argument in
brackets says only that some instance exists. -/
opaque Config.build [Inhabited Build] : Build

/-- The parameters `B` and `ROM` of this machine. Everything known of them is `Config.params_valid`. -/
def Config.params : Params := (@Config.build ⟨⟨canonicalParams 2, canonicalParams_two_valid⟩⟩).val

/-- R7, R55 and R56 hold of this machine's parameters. -/
theorem Config.params_valid : Config.params.Valid := (@Config.build ⟨⟨canonicalParams 2, canonicalParams_two_valid⟩⟩).property

end Sys2Proof
end

