-- ==== Sys2Proof/Machine/Flags.lean ====
section
/-! DEFINITION. `STATUS`, the only flags of the block (spec/10_state.md R18, R22): `CFG` in bit 0, one sticky bit per cause in bits
1 to 5, and hardwired zeros above. -/

namespace Sys2Proof.Machine

/-- The cause code of R90. -/
def causeCode : Cause → BitVec 3
  | .illegalCommand => 1#3
  | .notConfigured => 2#3
  | .badSampleRate => 3#3
  | .badFrequency => 4#3
  | .incrementRange => 5#3

/-- The bits of `STATUS` that hold state, 5 to 0 (R13, R18). -/
def statusImplemented : Word := 0x0000003F#32

/-- What a read of `STATUS` gives: bits 31:6 are hardwired 0 (R18). -/
def readStatus (s : State) : Word := s.status &&& statusImplemented

/-- A write of `STATUS` by the hardware: bits 31:6 stay 0, whatever is written (R18). -/
def writeStatus (v : Word) (s : State) : State := { s with status := v &&& statusImplemented }

/-- `STATUS.CFG` (R18). -/
def configured (s : State) : Bool := (readStatus s).getLsbD 0

/-- The mask of `CFG` (R18). -/
def cfgBit : Word := 0x00000001#32

/-- The mask of a cause's sticky bit: its position equals the cause code (R18). -/
def stickyBit (c : Cause) : Word := 1#32 <<< (causeCode c).toNat

/-- Set `CFG` and nothing else of `STATUS`; no sticky bit is cleared (R75, R99). -/
def setConfigured (s : State) : State := writeStatus (readStatus s ||| cfgBit) s

/-- Set the sticky bit of a cause and nothing else of `STATUS` (R96). -/
def setSticky (c : Cause) (s : State) : State := writeStatus (readStatus s ||| stickyBit c) s

/-- The output `fault_o`: the OR of the five sticky bits (R27). -/
def faultO (s : State) : Bool :=
  (readStatus s).getLsbD 1 || (readStatus s).getLsbD 2 || (readStatus s).getLsbD 3 || (readStatus s).getLsbD 4 ||
    (readStatus s).getLsbD 5

end Sys2Proof.Machine
end

