-- ==== Sys2Proof/Machine/Ops.lean ====
section
/-! DEFINITION. The operations the meanings are made of: answering, taking a fault, reading the table, forming an index, advancing
the accumulator, the hardware reset. -/

namespace Sys2Proof.Machine

/-! ## Answering a command (spec/30_encoding.md R44) -/

/-- The response of a command that succeeds: `{0, 0b000, data}` (R44). -/
def okResponse (data : Word) : Response := 0#1 ++ 0#3 ++ data

/-- The response of a command that is rejected: `{1, cause, 0x00000000}` (R44). -/
def faultResponse (c : Cause) : Response := 1#1 ++ causeCode c ++ 0x00000000#32

/-- The field `fault`, bit 35 (R44). -/
def responseFault (r : Response) : Bool := r.getLsbD 35

/-- The field `cause`, bits 34:32 (R44). -/
def responseCause (r : Response) : BitVec 3 := r.extractLsb' 32 3

/-- The field `data`, bits 31:0 (R44). -/
def responseData (r : Response) : Word := r.extractLsb' 0 32

/-- Put a response word on the port. -/
def emit (r : Response) (s : State) : State := { s with responses := s.responses ++ [r] }

/-- `rsp <- ( data )`: the command succeeds (R44). -/
def respond (data : Word) (s : State) : State := emit (okResponse data) s

/-! ## Taking a fault (spec/60_exceptions.md R96)

There is no return from one (R99): nothing is saved and nothing is entered, so the next command simply runs. -/

/-- Fault entry, `raise <Fault>(c)`: no register but the sticky bit changes, and the response carries the cause (R96). -/
def raise (c : Cause) (s : State) : State := emit (faultResponse c) (setSticky c s)

/-- The configured check that opens the eight commands which act on the oscillator (spec/42_nco_engine.md R73). -/
def whenConfigured (run : State → State) (s : State) : State := if configured s then run s else raise .notConfigured s

/-- `d = DPHI(..)`, and either the fault it gives or the rest of the command with `d` (R74, R79, R80). -/
def withIncrement (d : Except Cause Word) (commit : Word → State → State) (s : State) : State :=
  match d with
  | .error c => raise c s
  | .ok w => commit w s

/-! ## The table and its indexer (spec/20_memory.md, spec/40_sine_lut.md) -/

/-- `LENGTH = 2^B` (R7). -/
def tableLength (p : Params) : Nat := 2 ^ p.bitDepth

/-- `MASK = LENGTH - 1` (R7). -/
def tableMask (p : Params) : Word := BitVec.ofNat 32 (tableLength p - 1)

/-- `SHIFT = 32 - B` (R7). -/
def tableShift (p : Params) : Nat := 32 - p.bitDepth

/-- `MemRead(i, 4) = ROM[i]`, a whole entry at a word index (R11, R28, R34). There is no write (R30). -/
def memRead (p : Params) (i : Word) : Word := p.rom i.toNat

/-- `INDEX(p) = (p >> SHIFT) & MASK`: the top `B` bits of the phase, truncated (R58). -/
def phaseIndex (p : Params) (ph : Word) : Word := (ph >>> tableShift p) &&& tableMask p

/-- The index of `LOOKUP`: the operand wraps into the table (R29, R59). -/
def lookupIndex (p : Params) (idx : Word) : Word := idx &&& tableMask p

/-! ## The accumulator -/

/-- The accumulator's adder, modulo `2^32`, the carry discarded (spec/42_nco_engine.md R76). -/
def advance (phase delta : Word) : Word := phase + delta

/-! ## The port and the hardware reset -/

/-- The inputs that remain once the next one has been taken. -/
def consume (rest : List HostInput) (s : State) : State := { s with inputs := rest }

/-- The hardware reset: every register takes its reset value (spec/10_state.md R26, spec/70_reset_and_hazards.md R105). What the
host has still to present and what it has been answered are the host's and stay. The table is no state and is not touched (R106). (DESIGN CHOICE, log 7.) -/
def hardwareReset (s : State) : State := { State.reset with inputs := s.inputs, responses := s.responses }

/-- A reset that falls on an accepted command: the command has no effect and no response (R107). -/
def abandonCommand (_cw : CommandWord) (s : State) : State := hardwareReset s

/-- A cycle in which nothing is presented executes nothing and changes nothing (R53). -/
def idleCycle (s : State) : State := s

/-- The host's word for one row of the opcode table, placed where the next step takes its command from (log 9, log 10). -/
def presentWord (nbits w : Nat) (s : State) : State :=
  { s with inputs := .command (BitVec.ofNat 68 (w % 2 ^ nbits)) :: s.inputs }

end Sys2Proof.Machine
end

