-- ==== Sys2Proof/Machine/Nco.lean ====
section
/-! DEFINITION. The oscillator commands (spec/42_nco_engine.md): `INIT`, `SAMPLE`, `SETF`, `SETR`, `RSTP`, `GETF`, `GETR`. -/

namespace Sys2Proof.Machine

/-- `INIT f, r` (R74, R75): all of the oscillator's registers and `CFG`, or nothing but a sticky bit. -/
def execInit (f r : Word) (s : State) : Host.Outcome State Fault Refusal :=
  .next (withIncrement (dphi f r)
    (fun d s => respond 0 (setConfigured { s with frequency := f, sampleRate := r, deltaPhase := d, phase := 0 })) s)

/-- `SAMPLE` on an instance with parameters `p` (R77): the index is taken from the phase before the advance. -/
def sampleOn (p : Params) (s : State) : State :=
  whenConfigured
    (fun s => respond (memRead p (phaseIndex p s.phase)) { s with phase := advance s.phase s.deltaPhase }) s

/-- `SAMPLE` (R77). -/
def execSample (s : State) : Host.Outcome State Fault Refusal := .next (sampleOn Config.params s)

/-- `SETF f` (R79): the increment is recomputed with the held sample rate in the same command; the phase is kept. -/
def execSetf (f : Word) (s : State) : Host.Outcome State Fault Refusal :=
  .next (whenConfigured
    (fun s => withIncrement (dphi f s.sampleRate) (fun d s => respond 0 { s with frequency := f, deltaPhase := d }) s) s)

/-- `SETR r` (R80): the increment is recomputed with the held frequency in the same command; the phase is kept. -/
def execSetr (r : Word) (s : State) : Host.Outcome State Fault Refusal :=
  .next (whenConfigured
    (fun s => withIncrement (dphi s.frequency r) (fun d s => respond 0 { s with sampleRate := r, deltaPhase := d }) s) s)

/-- `RSTP` (R81). -/
def execRstp (s : State) : Host.Outcome State Fault Refusal :=
  .next (whenConfigured (fun s => respond 0 { s with phase := 0 }) s)

/-- `GETF` (R82). -/
def execGetf (s : State) : Host.Outcome State Fault Refusal := .next (whenConfigured (fun s => respond s.frequency s) s)

/-- `GETR` (R83). -/
def execGetr (s : State) : Host.Outcome State Fault Refusal := .next (whenConfigured (fun s => respond s.sampleRate s) s)

end Sys2Proof.Machine
end

