-- ==== Sys2Proof/Machine/SineLut.lean ====
section
/-! DEFINITION. The command of the sub-block `sine_lut_indexer` (spec/40_sine_lut.md): `LOOKUP`. -/

namespace Sys2Proof.Machine

/-- `LOOKUP idx` on an instance with parameters `p` (R59): no configured check, no fault, no state written. -/
def lookupOn (p : Params) (idx : Word) (s : State) : State := respond (memRead p (lookupIndex p idx)) s

/-- `LOOKUP idx` (R59). -/
def execLookup (idx : Word) (s : State) : Host.Outcome State Fault Refusal := .next (lookupOn Config.params idx s)

end Sys2Proof.Machine
end

