-- ==== Sys2Proof/Machine/System.lean ====
section
/-! DEFINITION. The system commands (spec/43_system.md): `NOP`, `GETP`, `GETD`, `GETS`; and the reserved opcodes
(spec/30_encoding.md R47, spec/60_exceptions.md R91). -/

namespace Sys2Proof.Machine

/-- `NOP` (R85): a response and nothing else, in every state. -/
def execNop (s : State) : Host.Outcome State Fault Refusal := .next (respond 0 s)

/-- `GETP` (R86). -/
def execGetp (s : State) : Host.Outcome State Fault Refusal := .next (whenConfigured (fun s => respond s.phase s) s)

/-- `GETD` (R87). -/
def execGetd (s : State) : Host.Outcome State Fault Refusal := .next (whenConfigured (fun s => respond s.deltaPhase s) s)

/-- `GETS` (R88): no configured check; reading clears nothing. -/
def execGets (s : State) : Host.Outcome State Fault Refusal := .next (respond (readStatus s) s)

/-- A word with a reserved opcode (R47, R91): rejected in any state, whatever the word holds (log 11). -/
def execReserved (_op : BitVec 4) (s : State) : Host.Outcome State Fault Refusal := .next (raise .illegalCommand s)

end Sys2Proof.Machine
end

