-- ==== Sys2Proof/Machine/Dispatch.lean ====
section
/-! DEFINITION. One arm per command, each a direct call of its meaning. -/

namespace Sys2Proof.Machine

def exec (i : Instr) (s : State) : Host.Outcome State Fault Refusal :=
  match i with
  | .nop => Sys2Proof.Machine.execNop s
  | .init f r => Sys2Proof.Machine.execInit f r s
  | .sample => Sys2Proof.Machine.execSample s
  | .setf f => Sys2Proof.Machine.execSetf f s
  | .setr r => Sys2Proof.Machine.execSetr r s
  | .rstp => Sys2Proof.Machine.execRstp s
  | .getf => Sys2Proof.Machine.execGetf s
  | .getr => Sys2Proof.Machine.execGetr s
  | .lookup idx => Sys2Proof.Machine.execLookup idx s
  | .getp => Sys2Proof.Machine.execGetp s
  | .getd => Sys2Proof.Machine.execGetd s
  | .gets => Sys2Proof.Machine.execGets s
  | .reserved op => Sys2Proof.Machine.execReserved op s

end Sys2Proof.Machine
end

