-- ==== Sys2Proof/Machine/Step.lean ====
section
/-! DEFINITION. One step takes the host's next input (spec/00_scope.md R12, spec/30_encoding.md R53): a command is decoded and
executed to completion, a reset or an abandoned command leaves the reset state, an idle cycle changes nothing. Where the host
presents nothing more the block holds its state (spec/60_exceptions.md R104 (d), spec/70_reset_and_hazards.md R116; DEDUCED, log 6). -/

namespace Sys2Proof.Machine

/-- One step of the block. -/
def step (s : State) : Host.Outcome State Fault Refusal :=
  match s.inputs with
  | [] => .next (idleCycle s)
  | .command cw :: rest => exec (decode cw) (consume rest s)
  | .abandoned cw :: rest => .next (abandonCommand cw (consume rest s))
  | .reset :: rest => .next (hardwareReset (consume rest s))
  | .idle :: rest => .next (idleCycle (consume rest s))

/-- `s` with one word of the opcode table as the very next command the host presents. -/
def State.withFetchWord (s : State) (nbits w : Nat) : State := presentWord nbits w s

end Sys2Proof.Machine
end

