-- ==== Sys2Proof/Machine/Assembler.lean ====
section
/-! DEFINITION. The listing notation of spec/30_encoding.md R50 and R51: one line of text to the command words it stands for. It is
no part of the hardware; it fixes which bit pattern a decimal operand means. What R50 leaves
open is fixed in log 16 (DESIGN CHOICE). -/

namespace Sys2Proof.Machine

/-! ## Numbers -/

/-- The value of a decimal digit. -/
def decDigit? (c : Char) : Option Nat := if '0' ≤ c ∧ c ≤ '9' then some (c.toNat - 48) else none

/-- The value of a hexadecimal digit, in either letter case (DESIGN CHOICE, log 16). -/
def hexDigit? (c : Char) : Option Nat :=
  if '0' ≤ c ∧ c ≤ '9' then some (c.toNat - 48)
  else if 'A' ≤ c ∧ c ≤ 'F' then some (c.toNat - 55)
  else if 'a' ≤ c ∧ c ≤ 'f' then some (c.toNat - 87)
  else none

/-- A run of digits in some base, on top of the number read so far. -/
def readDigits (digit? : Char → Option Nat) (base : Nat) : Nat → List Char → Option Nat
  | acc, [] => some acc
  | acc, c :: cs =>
    match digit? c with
    | some d => readDigits digit? base (acc * base + d) cs
    | none => none

/-- A number that has at least one digit. -/
def readNumber (digit? : Char → Option Nat) (base : Nat) (cs : List Char) : Option Nat :=
  if cs.isEmpty then none else readDigits digit? base 0 cs

/-- `n / d` to the nearest integer, ties to even. -/
def roundHalfEven (n d : Nat) : Nat :=
  let t := n / d
  if 2 * (n % d) > d ∨ (2 * (n % d) = d ∧ t % 2 = 1) then t + 1 else t

/-- Whether `num/den` is at least `2^e`. -/
def atLeastPow (num den : Nat) (e : Int) : Bool := den * 2 ^ e.toNat ≤ num * 2 ^ (-e).toNat

/-- The binary exponent of the last place of the binary32 nearest to `num/den`, which is not zero: 23 below its leading bit, and
no smaller than the subnormals' `-149`. -/
def lastPlace (num den : Nat) : Int :=
  let e : Int := (Nat.log2 num : Int) - (Nat.log2 den : Int)
  max ((if atLeastPow num den e then e else e - 1) - 23) (-149)

/-- The magnitude bits (30:0) of the binary32 nearest to `num/den`, ties to even; `none` where that is no finite binary32
(DESIGN CHOICE, log 16). -/
def nearestMagnitude (num den : Nat) : Option Nat :=
  if num = 0 then some 0
  else
    let e := lastPlace num den
    let bits := (e + 149).toNat * 2 ^ 23 + roundHalfEven (num * 2 ^ (-e).toNat) (den * 2 ^ e.toNat)
    if bits < 0x7F800000 then some bits else none

/-- The binary32 nearest to `num/den`, negated if asked, ties to even (R50). -/
def nearestWord (negative : Bool) (num den : Nat) : Option Word :=
  match nearestMagnitude num den with
  | some m => some (BitVec.ofNat 32 ((if negative then 2 ^ 31 else 0) + m))
  | none => none

/-! ## Operands -/

/-- The text before and after the first decimal point. -/
def splitPoint : List Char → List Char × Option (List Char)
  | [] => ([], none)
  | c :: cs => if c = '.' then ([], some cs) else ((c :: (splitPoint cs).1), (splitPoint cs).2)

/-- An unsigned decimal real as a fraction: digits with at most one decimal point and at least one digit, no sign and no
exponent (R50 names no spelling: DESIGN CHOICE, log 16). -/
def readDecimal (cs : List Char) : Option (Nat × Nat) :=
  match splitPoint cs with
  | (whole, none) => (readNumber decDigit? 10 whole).map fun n => (n, 1)
  | (whole, some frac) => (readNumber decDigit? 10 (whole ++ frac)).map fun n => (n, 10 ^ frac.length)

/-- A frequency or a rate: a decimal real number, or `0x` and 8 hexadecimal digits, the bit pattern itself (R50). A decimal
may have a leading `-`; a leading `+`, an exponent and the prefix `0X` are refused (DESIGN CHOICE, log 16). -/
def readReal (cs : List Char) : Option Word :=
  match cs with
  | '0' :: 'x' :: ds => if ds.length = 8 then (readNumber hexDigit? 16 ds).map (BitVec.ofNat 32) else none
  | '-' :: ds => (readDecimal ds).bind fun q => nearestWord true q.1 q.2
  | ds => (readDecimal ds).bind fun q => nearestWord false q.1 q.2

/-- A table index: a decimal integer, a negative one standing for its two's-complement pattern, or `0x` hex (R50, R59). What
fits no 32 bits is refused (DESIGN CHOICE, log 16). -/
def readIndex (cs : List Char) : Option Word :=
  match cs with
  | '0' :: 'x' :: ds => (readNumber hexDigit? 16 ds).bind fun n => if n < 2 ^ 32 then some (BitVec.ofNat 32 n) else none
  | '-' :: ds => (readNumber decDigit? 10 ds).bind fun n => if n ≤ 2 ^ 31 then some (BitVec.ofInt 32 (-n)) else none
  | ds => (readNumber decDigit? 10 ds).bind fun n => if n < 2 ^ 32 then some (BitVec.ofNat 32 n) else none

/-! ## Lines -/

/-- The line without its comment: `;` starts one (R50). -/
def stripComment : List Char → List Char
  | [] => []
  | c :: cs => if c = ';' then [] else c :: stripComment cs

/-- The non-empty tokens of a line: runs of characters that are neither blanks nor commas, and the commas themselves
(DESIGN CHOICE, log 16). -/
def tokens : List Char → List Char → List (List Char)
  | cur, [] => if cur.isEmpty then [] else [cur]
  | cur, c :: cs =>
    if c = ' ' ∨ c = '\t' then (if cur.isEmpty then tokens [] cs else cur :: tokens [] cs)
    else if c = ',' then (if cur.isEmpty then [','] :: tokens [] cs else cur :: [','] :: tokens [] cs)
    else tokens (cur ++ [c]) cs

/-- The mnemonics (R43) and the document's operation names, each an alias of exactly one command (R51), by opcode.
They are read in the letter case printed there only (DESIGN CHOICE, log 16). -/
def mnemonicTable : List (List Char × Nat) :=
  [("NOP".toList, 0x0), ("INIT".toList, 0x1), ("SAMPLE".toList, 0x2), ("SETF".toList, 0x3), ("SETR".toList, 0x4),
   ("RSTP".toList, 0x5), ("GETF".toList, 0x6), ("GETR".toList, 0x7), ("LOOKUP".toList, 0x8), ("GETP".toList, 0x9),
   ("GETD".toList, 0xA), ("GETS".toList, 0xB), ("Construct".toList, 0x1), ("ProduceSample".toList, 0x2),
   ("SetFrequency".toList, 0x3), ("SetSampleRate".toList, 0x4), ("ResetPhase".toList, 0x5), ("Frequency".toList, 0x6),
   ("SampleRate".toList, 0x7), ("Lookup".toList, 0x8)]

/-- A command from its opcode and the tokens of its operands (R41, R50). -/
def readOperands (op : Nat) (args : List (List Char)) : Option Instr :=
  match op, args with
  | 0x0, [] => some .nop
  | 0x1, [f, [','], r] => (readReal f).bind fun f => (readReal r).map fun r => .init f r
  | 0x2, [] => some .sample
  | 0x3, [f] => (readReal f).map .setf
  | 0x4, [r] => (readReal r).map .setr
  | 0x5, [] => some .rstp
  | 0x6, [] => some .getf
  | 0x7, [] => some .getr
  | 0x8, [idx] => (readIndex idx).map .lookup
  | 0x9, [] => some .getp
  | 0xA, [] => some .getd
  | 0xB, [] => some .gets
  | _, _ => none

/-- The commands of a line: none for a blank one, `N` for `SAMPLE x N`, one otherwise (R50). The count is in
decimal digits only, a count of 0 is read, the `x` is a token of its own, and `ProduceSample x N` is read as `SAMPLE x N`
(DESIGN CHOICE, log 16). -/
def readLine (line : List Char) : Option (List Instr) :=
  match tokens [] (stripComment line) with
  | [] => some []
  | name :: args =>
    (mnemonicTable.lookup name).bind fun op =>
      match op, args with
      | 0x2, [['x'], n] => (readNumber decDigit? 10 n).map fun n => List.replicate n .sample
      | _, _ => (readOperands op args).map fun i => [i]

/-- The command words of a line, ignored fields written as zeros (R42, R50). -/
def assembleLine (line : List Char) : Option (List CommandWord) := (readLine line).map (·.map encode)

end Sys2Proof.Machine
end

