-- ==== Sys2Proof/Machine/Blocks.lean ====
section
/-! DEFINITION. Several oscillators (spec/60_exceptions.md R103): the state of the system is the tuple of the blocks' states, a command
to one block changes that block's component only, and all blocks read the one table of `Config.params`, which nothing writes.
That they share it is the model's choice: R9 and R103 say that they may (DESIGN CHOICE, log 15). -/

namespace Sys2Proof.Machine

/-- The system: one state per block. -/
abbrev Blocks := List State

/-- Block `k` takes its next input; the others hold theirs. Where there is no block `k` nothing happens,
and every block reads the one table of `Config.params` (both DESIGN CHOICE, log 15). -/
def stepBlock (k : Nat) (bs : Blocks) : Host.Outcome Blocks Fault Refusal :=
  match bs[k]? with
  | none => .next bs
  | some s =>
    match step s with
    | .next t => .next (bs.set k t)
    | .fault r => .fault r
    | .refused r => .refused r

/-- The blocks named in `ks` take their next inputs one after another: one interleaving of the blocks' command streams. -/
def runBlocks : List Nat → Blocks → Host.Outcome Blocks Fault Refusal
  | [], bs => .next bs
  | k :: ks, bs =>
    match stepBlock k bs with
    | .next bs' => runBlocks ks bs'
    | .fault r => .fault r
    | .refused r => .refused r

end Sys2Proof.Machine
end

