-- ==== Sys2Proof/Safety.lean ====
section
/-! DEFINITION. The terms in which claims speak of good states and of what a command may do (spec/10_state.md R13, R18, R19;
spec/41_phase_increment.md R65; spec/60_exceptions.md R96). -/

namespace Sys2Proof.Safety

open Sys2Proof.Machine

/-! ## Numbers -/

/-- `Q(f, r)` as R65 writes it: one exact quotient of rationals and one floor. The machine computes it with integers
(`unboundedIncrement`, R66). -/
def exactQ (f r : Word) : ℤ := ⌊val f * 2 ^ 32 / val r⌋

/-! ## Good states -/

/-- Bits 31:6 of the `STATUS` register hold 0 (R13, R18). -/
abbrev StatusHardwired (s : State) : Prop := s.status &&& ~~~statusImplemented = 0

/-- R19's invariant of a configured engine: the frequency is finite, the rate finite and above zero, and the increment is
`floor(val(frequency) * 2^32 / val(sample_rate))`. -/
def Tuned (s : State) : Prop :=
  finite s.frequency = true ∧ positive s.sampleRate = true ∧ exactQ s.frequency s.sampleRate = (s.deltaPhase.toNat : ℤ)

/-- The four registers of the oscillator hold 0 (R19, last sentence). -/
abbrev OscillatorClear (s : State) : Prop :=
  s.phase = 0 ∧ s.deltaPhase = 0 ∧ s.frequency = 0 ∧ s.sampleRate = 0

/-- The invariant of the block (R18, R19). -/
def BlockInv (s : State) : Prop :=
  StatusHardwired s ∧ (configured s = true → Tuned s) ∧ (configured s = false → OscillatorClear s)

/-- No fault is recorded: `STATUS[5:1] = 0` (R96). -/
abbrev NoFaultRecorded (s : State) : Prop := s.status &&& 0x0000003E#32 = 0

/-! ## What a command may do -/

/-- The four registers of the oscillator agree. -/
abbrev SameOscillator (s t : State) : Prop :=
  t.phase = s.phase ∧ t.deltaPhase = s.deltaPhase ∧ t.frequency = s.frequency ∧ t.sampleRate = s.sampleRate

/-- From `s` to `t` the block produced exactly one response, the word `r`. -/
abbrev Answered (s t : State) (r : Response) : Prop := t.responses = s.responses ++ [r]

/-- The state after a rejection, with the sticky bit and the response word written out (R96). -/
def rejectedWith (sticky : Word) (r : Response) (s : State) : State :=
  { s with status := (s.status ||| sticky) &&& 0x0000003F#32, responses := s.responses ++ [r] }

/-- The table reads the same in both states, at every index (R30): `LOOKUP` answers the same word. -/
def SameTable (s t : State) : Prop :=
  ∀ idx, ∃ w, exec (.lookup idx) s = .next (respond w s) ∧ exec (.lookup idx) t = .next (respond w t)

/-- The eight commands that make the configured check (R73). -/
def needsConfigured : Instr → Bool
  | .sample | .setf _ | .setr _ | .rstp | .getf | .getr | .getp | .getd => true
  | .nop | .init _ _ | .lookup _ | .gets | .reserved _ => false

/-- The commands that write no register when they succeed (R59, R82, R83, R85 to R88). -/
def onlyReads : Instr → Bool
  | .nop | .getf | .getr | .lookup _ | .getp | .getd | .gets => true
  | .init _ _ | .sample | .setf _ | .setr _ | .rstp | .reserved _ => false

end Sys2Proof.Safety
end

