-- ==== Sys2Proof/Certificates/Slice0/Obligations.lean ====
section
/-! DEFINITION. The statements for the provers, each with the rule or the section of spec/ it formalises. A response of the block
is read off the transcript `State.responses` (log 2), and the host's next command off `State.inputs` (log 1). -/

open Sys2Proof Sys2Proof.Machine Sys2Proof.Safety

/-! ## Encoding (spec/30_encoding.md) -/

/-- Words that spec/95_test_vectors.md writes out, one for every row of the opcode table, decode to the commands they stand for. -/
def Obligations.DecodeOfSpecWords : Prop :=
  decode 0x0FFFFFFFFFFFFFFFF#68 = .nop ∧
  decode 0x143DC0000473B8000#68 = .init 0x43DC0000#32 0x473B8000#32 ∧
  decode 0x20000000000000000#68 = .sample ∧
  decode 0x3445C000000000000#68 = .setf 0x445C0000#32 ∧
  decode 0x400000000472C4400#68 = .setr 0x472C4400#32 ∧
  decode 0x50000000000000000#68 = .rstp ∧
  decode 0x60000000000000000#68 = .getf ∧
  decode 0x70000000000000000#68 = .getr ∧
  decode 0x8DEADBEEF00000100#68 = .lookup 0x00000100#32 ∧
  decode 0x90000000000000000#68 = .getp ∧
  decode 0xA0000000000000000#68 = .getd ∧
  decode 0xB0000000000000001#68 = .gets ∧
  decode 0xC123456789ABCDEF0#68 = .reserved 0xC#4 ∧
  decode 0xFFFFFFFFFFFFFFFFF#68 = .reserved 0xF#4

/-- Decoding the canonical word of a command gives the command back, for every command and every operand (R40 to R43, R46, R47). -/
def Obligations.DecodeEncodeRoundTrip : Prop :=
  ∀ i : Instr, i.wellFormed = true → decode (encode i) = i

/-- Every word decodes to a command that some word stands for, and the canonical word of that command has the same opcode and
decodes alike: no word is left without an outcome (R43, R48). -/
def Obligations.EveryWordDecodesWellFormed : Prop :=
  ∀ cw : CommandWord, (decode cw).wellFormed = true ∧ opField (encode (decode cw)) = opField cw ∧
    decode (encode (decode cw)) = decode cw

/-- R42: the bits of an ignored field change nothing a step does, the match and mask pairs of spec/opcode_table.json select
exactly the words that decode to their rows, and the canonical word has zeros in the ignored fields. -/
def Obligations.IgnoredBitsChangeNothing : Prop :=
  (∀ (s : State) (rest : List HostInput) (a b a' b' : Word),
    (∀ op : BitVec 4, op ∉ [0x1#4, 0x3#4, 0x4#4, 0x8#4] →
      step { s with inputs := .command (packCommand op a b) :: rest } =
        step { s with inputs := .command (packCommand op a' b') :: rest }) ∧
    step { s with inputs := .command (packCommand 0x3#4 a b) :: rest } =
      step { s with inputs := .command (packCommand 0x3#4 a b') :: rest } ∧
    step { s with inputs := .command (packCommand 0x4#4 a b) :: rest } =
      step { s with inputs := .command (packCommand 0x4#4 a' b) :: rest } ∧
    step { s with inputs := .command (packCommand 0x8#4 a b) :: rest } =
      step { s with inputs := .command (packCommand 0x8#4 a' b) :: rest }) ∧
  (∀ cw : CommandWord, opcode (decode cw) = opField cw ∧
    (∀ k : BitVec 4, k < 0xC#4 →
      (cw &&& 0xF0000000000000000#68 = (k.setWidth 68) <<< 64 ↔ opcode (decode cw) = k)) ∧
    (cw &&& 0xC0000000000000000#68 = 0xC0000000000000000#68 ↔ decode cw = .reserved (opField cw))) ∧
  (∀ f, bField (encode (.setf f)) = 0) ∧ (∀ r, aField (encode (.setr r)) = 0) ∧ (∀ idx, aField (encode (.lookup idx)) = 0) ∧
  (∀ i ∈ [Instr.nop, .sample, .rstp, .getf, .getr, .getp, .getd, .gets], aField (encode i) = 0 ∧ bField (encode i) = 0)

/-- A row of the opcode table, given as a number, is decoded as the command word it is; a number with a bit above bit 67 is no
command word (R40, R49). -/
def Obligations.TableWordsDecode : Prop :=
  (∀ nbits w : Nat, 68 ≤ nbits → w < 2 ^ 68 → decodeTableWord nbits w = some (decode (BitVec.ofNat 68 w))) ∧
  (∀ nbits w : Nat, 2 ^ 68 ≤ w % 2 ^ nbits → decodeTableWord nbits w = none)

/-! ## Steps, reset and the port (spec/30_encoding.md R53, spec/70_reset_and_hazards.md) -/

/-- A step runs the decoded command on the state with that input taken, and adds nothing around it; a word placed by the host
is that very next command (R12, R53). A cycle with nothing presented changes nothing but that it is past, and where the host
presents nothing more the block holds its state (R53, R104 (d)). -/
def Obligations.StepRunsDecodedCommand : Prop :=
  (∀ (s : State) (cw : CommandWord) (rest : List HostInput), s.inputs = .command cw :: rest →
    step s = exec (decode cw) { s with inputs := rest }) ∧
  (∀ (s : State) (nbits w : Nat), w < 2 ^ nbits → w < 2 ^ 68 →
    step (s.withFetchWord nbits w) = exec (decode (BitVec.ofNat 68 w)) s) ∧
  (∀ s : State, s.inputs = [] → step s = .next s) ∧
  (∀ (s : State) (rest : List HostInput), s.inputs = .idle :: rest → step s = .next { s with inputs := rest })

/-- What reset leaves (R26): all five registers 0, so no oscillator, no recorded fault and `fault_o` low; and a hardware reset
between two commands leaves that, from any state, and produces no response (R105). -/
def Obligations.ResetLeavesZeros : Prop :=
  (∀ (s : State) (rest : List HostInput), s.inputs = .reset :: rest →
    step s = .next { State.reset with inputs := rest, responses := s.responses }) ∧
  State.reset.phase = 0x00000000#32 ∧ State.reset.deltaPhase = 0x00000000#32 ∧ State.reset.frequency = 0x00000000#32 ∧
  State.reset.sampleRate = 0x00000000#32 ∧ State.reset.status = 0x00000000#32 ∧ configured State.reset = false ∧
  faultO State.reset = false

/-- A command whose execution a reset falls on has no effect and no response; the state is as if it had never been issued
(derived from R107). That the host's pending inputs and past responses stay (log 7), and that such a reset is the one event
`abandoned` (log 8), are the model's choices. -/
def Obligations.ResetAbandonsCommand : Prop :=
  ∀ (s : State) (cw : CommandWord) (rest : List HostInput), s.inputs = .abandoned cw :: rest →
    step s = .next { State.reset with inputs := rest, responses := s.responses } ∧
    step s = step { s with inputs := .reset :: rest }

/-- The block never stops: any number of steps from any state gives a state, and exactly one response per command accepted and
answered (R44, R48, R53). -/
def Obligations.RunsNeverStop : Prop :=
  ∀ (n : Nat) (s : State), ∃ t, core.run n s = .next t ∧ t.inputs = s.inputs.drop n ∧
    t.responses.length = s.responses.length + (s.inputs.take n).countP (fun e => e matches .command _)

/-! ## The invariant (spec/10_state.md R18, R19) -/

/-- The invariant holds right after reset. -/
def Obligations.InvariantAtReset : Prop := BlockInv State.reset

/-- Every step keeps it: `STATUS[31:6]` stays 0, a configured engine's increment always belongs to its frequency and rate, and
an unconfigured one holds zeros. -/
def Obligations.InvariantKeptByEveryStep : Prop :=
  ∀ s t : State, BlockInv s → step s = .next t → BlockInv t

/-! ## Reading binary32 and the phase increment (spec/41_phase_increment.md) -/

/-- R62's table, row by row, and the ranges of the significand and the exponent. -/
def Obligations.BinaryWordsReadByClass : Prop :=
  ∀ w : Word,
    let s : ℚ := if w.getLsbD 31 then -1 else 1
    let e := (w.extractLsb' 23 8).toNat
    let m := (w.extractLsb' 0 23).toNat
    (e = 0 → m = 0 → floatClass w = .zero ∧ val? w = some 0) ∧
    (e = 0 → m ≠ 0 → floatClass w = .subnormal ∧ val? w = some (s * m * (2 : ℚ) ^ (-149 : ℤ))) ∧
    (1 ≤ e → e ≤ 254 → floatClass w = .normal ∧ val? w = some (s * (2 ^ 23 + m) * (2 : ℚ) ^ ((e : ℤ) - 150))) ∧
    (e = 255 → m = 0 → floatClass w = .infinity ∧ val? w = none) ∧
    (e = 255 → m ≠ 0 → floatClass w = .nan ∧ val? w = none) ∧
    (finite w = true → val? w = some (s * significand w * (2 : ℚ) ^ exponent w) ∧
      significand w < 2 ^ 24 ∧ -149 ≤ exponent w ∧ exponent w ≤ 104)

/-- R63: `positive(w)` is `val(w) > 0`, and the words that are not positive are the ones it lists. -/
def Obligations.PositiveWordsAreAboveZero : Prop :=
  ∀ w : Word,
    (finite w = true ↔ w.extractLsb' 23 8 ≠ 255#8) ∧
    (positive w = true ↔ finite w = true ∧ w.getLsbD 31 = false ∧ w.extractLsb' 0 31 ≠ 0#31) ∧
    (positive w = true ↔ finite w = true ∧ 0 < val w) ∧
    (positive w = false ↔ w = 0x00000000#32 ∨ w.getLsbD 31 = true ∨ w = 0x7F800000#32 ∨
      (0x7F800001#32 ≤ w ∧ w ≤ 0x7FFFFFFF#32))

/-- R65: the integer computation of the increment is the exact floor of the exact quotient, and it is below `2^310` in size. -/
def Obligations.IncrementIsExactFloor : Prop :=
  ∀ f r : Word, finite f = true → positive r = true →
    unboundedIncrement f r = ⌊val f * 2 ^ 32 / val r⌋ ∧ |unboundedIncrement f r| < 2 ^ 310

/-- R67: the checks of `DPHI` in their order, and the increment when all pass. -/
def Obligations.IncrementChecksInOrder : Prop :=
  ∀ f r : Word, dphi f r =
    if positive r = false then .error .badSampleRate
    else if finite f = false then .error .badFrequency
    else if exactQ f r < 0 ∨ 2 ^ 32 ≤ exactQ f r then .error .incrementRange
    else .ok (BitVec.ofInt 32 (exactQ f r))

/-- The operand pairs that pass all three checks are those with a positive rate and a finite frequency from 0 up to, but not
including, the rate (the consequences the spec derives in section 2). -/
def Obligations.AcceptedOperandPairs : Prop :=
  ∀ f r : Word, (∃ d, dphi f r = .ok d) ↔ positive r = true ∧ finite f = true ∧ 0 ≤ val f ∧ val f < val r

/-- The oscillator never runs above the requested frequency and less than `val(r) / 2^32` below it, and stands still exactly
where the request is below that step. -/
def Obligations.IncrementResolution : Prop :=
  ∀ f r d : Word, dphi f r = .ok d →
    (d.toNat : ℚ) * val r / 2 ^ 32 ≤ val f ∧ val f < ((d.toNat : ℚ) + 1) * val r / 2 ^ 32 ∧
    (d = 0 ↔ 0 ≤ val f * 2 ^ 32 ∧ val f * 2 ^ 32 < val r)

/-- The increment does not fall as the frequency rises nor rise with the rate, depends on the ratio alone, and is `2^31` at half
the rate. -/
def Obligations.IncrementMonotoneInRatio : Prop :=
  ∀ f r d f' r' d' : Word, dphi f r = .ok d → dphi f' r' = .ok d' →
    (val r = val r' → val f ≤ val f' → d.toNat ≤ d'.toNat) ∧
    (val f = val f' → val r ≤ val r' → d'.toNat ≤ d.toNat) ∧
    (val f / val r = val f' / val r' → d = d') ∧
    (val f = val r / 2 → d = 0x80000000#32)

/-! ## The table and its indexer (spec/40_sine_lut.md, spec/20_memory.md) -/

/-- R58: the index is the top `B` bits of the phase, truncated, and always inside the table. -/
def Obligations.PhaseIndexIsTopBits : Prop :=
  ∀ p : Params, p.depthLegal = true → ∀ ph : Word,
    phaseIndex p ph = (ph >>> (32 - p.bitDepth)) &&& BitVec.ofNat 32 (2 ^ p.bitDepth - 1) ∧
    phaseIndex p ph = ph >>> (32 - p.bitDepth) ∧
    (phaseIndex p ph).toNat = ph.toNat / 2 ^ (32 - p.bitDepth) ∧
    (phaseIndex p ph).toNat < 2 ^ p.bitDepth ∧
    (∀ ph' : Word, (∀ n, 32 - p.bitDepth ≤ n → ph'.getLsbD n = ph.getLsbD n) → phaseIndex p ph' = phaseIndex p ph)

/-- R29: every 32-bit index wraps into the table, so no index is out of range. -/
def Obligations.TableIndexWraps : Prop :=
  ∀ p : Params, p.depthLegal = true → ∀ x : Word,
    memRead p (lookupIndex p x) = p.rom (x &&& BitVec.ofNat 32 (2 ^ p.bitDepth - 1)).toNat ∧
    (x &&& BitVec.ofNat 32 (2 ^ p.bitDepth - 1)).toNat = x.toNat % 2 ^ p.bitDepth ∧
    (lookupIndex p x).toNat < 2 ^ p.bitDepth

/-- R59: `LOOKUP idx` answers `ROM[idx mod LENGTH]` in every state and changes nothing; an index and its remainder, and an
integer's two's-complement pattern, read the entry of the floored remainder. -/
def Obligations.LookupAnswersTableEntry : Prop :=
  (∀ a idx : Word, decode (packCommand 0x8#4 a idx) = .lookup idx) ∧
  (∀ (idx : Word) (s : State), exec (.lookup idx) s =
    .next { s with responses := s.responses ++ [okResponse (Config.params.rom (idx.toNat % 2 ^ Config.params.bitDepth))] }) ∧
  (∀ (i : ℤ) (s : State), -2 ^ 31 ≤ i → i < 2 ^ 32 → exec (.lookup (BitVec.ofInt 32 i)) s =
    .next { s with
      responses := s.responses ++ [okResponse (Config.params.rom (i % 2 ^ Config.params.bitDepth).toNat)] })

/-- No step changes the table: every index reads the same word before and after it, reset included (R30, R36 (b), R106). -/
def Obligations.TableReadsNeverChange : Prop :=
  ∀ s t : State, step s = .next t → SameTable s t

/-- A table of correctly rounded sines, whatever its size, meets the spec's bound on entries and its pinned entry 0. -/
def Obligations.CanonicalTablesAreAdmissible : Prop :=
  ∀ p : Params, p.depthLegal = true → p.Canonical → p.Valid

/-- The tables the spec prints for `B = 1` to `4` meet its bound on entries, so instances with them exist. -/
def Obligations.PrintedTablesAreAdmissible : Prop :=
  (canonicalParams 1).Valid ∧ (canonicalParams 2).Valid ∧ (canonicalParams 3).Valid ∧ (canonicalParams 4).Valid

/-- The table the spec prints for `B = 2` holds the correctly rounded sines. -/
def Obligations.PrintedTableIsCanonical : Prop := (canonicalParams 2).Canonical

/-! ## The oscillator commands (spec/42_nco_engine.md)

`0x4`, `0x8`, `0x10`, `0x20` are the sticky bits of causes 2, 3, 4, 5 and `0xA00000000` to `0xD00000000` their responses (R18, R44). -/

/-- R74: `INIT f, r` writes the four registers and `CFG` together, or nothing but the sticky bit of the first check that fails. -/
def Obligations.InitConstructsOrRejects : Prop :=
  ∀ f r : Word, decode (packCommand 0x1#4 f r) = .init f r ∧ ∀ s : State,
    (positive r = false → exec (.init f r) s = .next (rejectedWith 0x8#32 0xB00000000#36 s)) ∧
    (positive r = true → finite f = false → exec (.init f r) s = .next (rejectedWith 0x10#32 0xC00000000#36 s)) ∧
    (positive r = true → finite f = true → exactQ f r < 0 ∨ 2 ^ 32 ≤ exactQ f r →
      exec (.init f r) s = .next (rejectedWith 0x20#32 0xD00000000#36 s)) ∧
    (positive r = true → finite f = true → 0 ≤ exactQ f r → exactQ f r < 2 ^ 32 →
      exec (.init f r) s = .next { s with
        frequency := f, sampleRate := r, deltaPhase := BitVec.ofInt 32 (exactQ f r), phase := 0x00000000#32,
        status := (s.status ||| 0x1#32) &&& 0x3F#32, responses := s.responses ++ [okResponse 0x00000000#32] })

/-- R77: `SAMPLE` answers the table entry at the phase before the advance and advances the phase by the increment. -/
def Obligations.SampleAnswersThenAdvances : Prop :=
  (∀ a b : Word, decode (packCommand 0x2#4 a b) = .sample) ∧ ∀ s : State,
    (s.status.getLsbD 0 = false → exec .sample s = .next (rejectedWith 0x4#32 0xA00000000#36 s)) ∧
    (s.status.getLsbD 0 = true → exec .sample s = .next { s with
      phase := s.phase + s.deltaPhase,
      responses := s.responses ++ [okResponse (Config.params.rom
        ((s.phase >>> (32 - Config.params.bitDepth)) &&& BitVec.ofNat 32 (2 ^ Config.params.bitDepth - 1)).toNat)] })

/-- R76: the adder is addition modulo `2^32`, with the spec's four corner results, and it is the only arithmetic applied to the
phase: a command leaves the phase alone, or clears it, or is a `SAMPLE` and adds. -/
def Obligations.AdderWrapsModulo : Prop :=
  (∀ p d : Word, (advance p d).toNat = (p.toNat + d.toNat) % 2 ^ 32 ∧ advance p 0 = p) ∧
  advance 0xFFFFFFFF#32 0x00000001#32 = 0x00000000#32 ∧ advance 0x80000000#32 0x80000000#32 = 0x00000000#32 ∧
  advance 0xFFFFFFFF#32 0xFFFFFFFF#32 = 0xFFFFFFFE#32 ∧
  (∀ (i : Instr) (s t : State), exec i s = .next t →
    t.phase = s.phase ∨ t.phase = 0x00000000#32 ∨ (i = .sample ∧ t.phase = advance s.phase s.deltaPhase))

/-- R79: `SETF f` on a configured engine whose held rate is positive (`BlockInv`). -/
def Obligations.SetfRecomputesOrRejects : Prop :=
  (∀ f b : Word, decode (packCommand 0x3#4 f b) = .setf f) ∧ ∀ (f : Word) (s : State),
    (s.status.getLsbD 0 = false → exec (.setf f) s = .next (rejectedWith 0x4#32 0xA00000000#36 s)) ∧
    (s.status.getLsbD 0 = true → positive s.sampleRate = true → finite f = false →
      exec (.setf f) s = .next (rejectedWith 0x10#32 0xC00000000#36 s)) ∧
    (s.status.getLsbD 0 = true → positive s.sampleRate = true → finite f = true →
      val f < 0 ∨ val s.sampleRate ≤ val f → exec (.setf f) s = .next (rejectedWith 0x20#32 0xD00000000#36 s)) ∧
    (s.status.getLsbD 0 = true → positive s.sampleRate = true → finite f = true → 0 ≤ val f → val f < val s.sampleRate →
      exec (.setf f) s = .next { s with
        frequency := f, deltaPhase := BitVec.ofInt 32 (exactQ f s.sampleRate),
        responses := s.responses ++ [okResponse 0x00000000#32] })

/-- R80: `SETR r` on a configured engine whose held frequency is finite and not below 0 (`BlockInv`). -/
def Obligations.SetrRecomputesOrRejects : Prop :=
  (∀ a r : Word, decode (packCommand 0x4#4 a r) = .setr r) ∧ ∀ (r : Word) (s : State),
    (s.status.getLsbD 0 = false → exec (.setr r) s = .next (rejectedWith 0x4#32 0xA00000000#36 s)) ∧
    (s.status.getLsbD 0 = true → positive r = false → exec (.setr r) s = .next (rejectedWith 0x8#32 0xB00000000#36 s)) ∧
    (s.status.getLsbD 0 = true → finite s.frequency = true → positive r = true → 0 < val s.frequency →
      val r ≤ val s.frequency → exec (.setr r) s = .next (rejectedWith 0x20#32 0xD00000000#36 s)) ∧
    (s.status.getLsbD 0 = true → finite s.frequency = true → positive r = true → 0 ≤ val s.frequency →
      val s.frequency < val r → exec (.setr r) s = .next { s with
        sampleRate := r, deltaPhase := BitVec.ofInt 32 (exactQ s.frequency r),
        responses := s.responses ++ [okResponse 0x00000000#32] })

/-- R81: `RSTP` clears the phase and nothing else; twice is once. -/
def Obligations.RstpClearsPhase : Prop :=
  (∀ a b : Word, decode (packCommand 0x5#4 a b) = .rstp) ∧ ∀ s : State,
    (s.status.getLsbD 0 = false → exec .rstp s = .next (rejectedWith 0x4#32 0xA00000000#36 s)) ∧
    (s.status.getLsbD 0 = true → exec .rstp s = .next { s with
      phase := 0x00000000#32, responses := s.responses ++ [okResponse 0x00000000#32] })

/-- R82: `GETF` answers the frequency's bit pattern as it is held and changes nothing. -/
def Obligations.GetfAnswersFrequency : Prop :=
  (∀ a b : Word, decode (packCommand 0x6#4 a b) = .getf) ∧ ∀ s : State,
    (s.status.getLsbD 0 = false → exec .getf s = .next (rejectedWith 0x4#32 0xA00000000#36 s)) ∧
    (s.status.getLsbD 0 = true → exec .getf s = .next { s with responses := s.responses ++ [okResponse s.frequency] })

/-- R83: `GETR` answers the sample rate's bit pattern as it is held and changes nothing. -/
def Obligations.GetrAnswersSampleRate : Prop :=
  (∀ a b : Word, decode (packCommand 0x7#4 a b) = .getr) ∧ ∀ s : State,
    (s.status.getLsbD 0 = false → exec .getr s = .next (rejectedWith 0x4#32 0xA00000000#36 s)) ∧
    (s.status.getLsbD 0 = true → exec .getr s = .next { s with responses := s.responses ++ [okResponse s.sampleRate] })

/-! ## The system commands (spec/43_system.md) and the reserved opcodes -/

/-- R85: `NOP` answers 0 in every state and changes nothing. -/
def Obligations.NopAnswersZero : Prop :=
  (∀ a b : Word, decode (packCommand 0x0#4 a b) = .nop) ∧ ∀ s : State,
    exec .nop s = .next { s with responses := s.responses ++ [0x000000000#36] }

/-- R86: `GETP` answers the phase and does not advance it. -/
def Obligations.GetpAnswersPhase : Prop :=
  (∀ a b : Word, decode (packCommand 0x9#4 a b) = .getp) ∧ ∀ s : State,
    (s.status.getLsbD 0 = false → exec .getp s = .next (rejectedWith 0x4#32 0xA00000000#36 s)) ∧
    (s.status.getLsbD 0 = true → exec .getp s = .next { s with responses := s.responses ++ [okResponse s.phase] })

/-- R87: `GETD` answers the increment, which is the floor for the frequency and the rate held wherever `BlockInv` holds. -/
def Obligations.GetdAnswersIncrement : Prop :=
  (∀ a b : Word, decode (packCommand 0xA#4 a b) = .getd) ∧ ∀ s : State,
    (s.status.getLsbD 0 = false → exec .getd s = .next (rejectedWith 0x4#32 0xA00000000#36 s)) ∧
    (s.status.getLsbD 0 = true → exec .getd s = .next { s with responses := s.responses ++ [okResponse s.deltaPhase] }) ∧
    (s.status.getLsbD 0 = true → BlockInv s → (s.deltaPhase.toNat : ℤ) = ⌊val s.frequency * 2 ^ 32 / val s.sampleRate⌋)

/-- R88: `GETS` answers the six bits of `STATUS` below 26 zeros, in any state, and clears nothing. -/
def Obligations.GetsAnswersStatus : Prop :=
  (∀ a b : Word, decode (packCommand 0xB#4 a b) = .gets) ∧ ∀ s : State,
    exec .gets s = .next { s with responses := s.responses ++ [okResponse (s.status &&& 0x3F#32)] }

/-- A word with a reserved opcode is rejected with cause 1 in any state, whatever its other 64 bits hold (derived from R91).
The second part also covers terms `.reserved op` with `op` below `0xC`, which no word decodes to: that they are rejected alike is
the model's choice (log 11). -/
def Obligations.ReservedOpcodesRejected : Prop :=
  (∀ (op : BitVec 4) (a b : Word), 0xC#4 ≤ op → decode (packCommand op a b) = .reserved op) ∧
  (∀ (op : BitVec 4) (s : State), exec (.reserved op) s = .next (rejectedWith 0x2#32 0x900000000#36 s))

/-! ## Responses and faults (spec/30_encoding.md R44, spec/60_exceptions.md) -/

/-- R44: every command produces exactly one response word, with its three fields as R44 lays them out. -/
def Obligations.OneResponsePerCommand : Prop :=
  (∀ (i : Instr) (s : State), ∃ t r, exec i s = .next t ∧ Answered s t r ∧
    ((∃ d, r = okResponse d) ∨ (∃ c, r = faultResponse c))) ∧
  (∀ d : Word, (okResponse d).getLsbD 35 = false ∧ (okResponse d).extractLsb' 32 3 = 0#3 ∧ (okResponse d).extractLsb' 0 32 = d) ∧
  (∀ c : Cause, (faultResponse c).getLsbD 35 = true ∧ (faultResponse c).extractLsb' 32 3 = causeCode c ∧
    (faultResponse c).extractLsb' 0 32 = 0x00000000#32)

/-- R96: a command that answers with a fault changes no register but that it sets the sticky bit of its cause, and the host's
further commands stand as they stood. -/
def Obligations.FaultsChangeOnlyStickyBit : Prop :=
  ∀ (i : Instr) (s t : State) (r : Response), exec i s = .next t → Answered s t r → responseFault r = true →
    ∃ c : Cause, r = faultResponse c ∧ SameOscillator s t ∧ t.status.getLsbD 0 = s.status.getLsbD 0 ∧
      t.status = (s.status ||| (1#32 <<< (causeCode c).toNat)) &&& 0x3F#32 ∧ t.inputs = s.inputs

/-- R73: the eight commands that act on the oscillator are rejected with cause 2 while `CFG = 0`, before an operand is looked at,
and the other four make no such check. -/
def Obligations.ConfiguredCheckOpensEight : Prop :=
  (∀ (i : Instr) (s : State), needsConfigured i = true → s.status.getLsbD 0 = false →
    exec i s = .next (rejectedWith 0x4#32 0xA00000000#36 s)) ∧
  (∀ i : Instr, i.wellFormed = true →
    (needsConfigured i = true ↔ opcode i ∈ [0x2#4, 0x3#4, 0x4#4, 0x5#4, 0x6#4, 0x7#4, 0x9#4, 0xA#4])) ∧
  (∀ (i : Instr) (s t : State) (r : Response), needsConfigured i = false → exec i s = .next t → Answered s t r →
    responseCause r ≠ 2#3)

/-- R97: where several conditions hold the first in R90's order is the one reported, and only its sticky bit is set. `f` and `r`
are the operands in play: the command's own, or the register held. -/
def Obligations.OneCauseInOrder : Prop :=
  ∀ (cw : CommandWord) (s : State), BlockInv s → ∃ t rsp, exec (decode cw) s = .next t ∧ Answered s t rsp ∧
    let op := (opField cw).toNat
    let f := if op = 1 ∨ op = 3 then aField cw else s.frequency
    let r := if op = 1 ∨ op = 4 then bField cw else s.sampleRate
    (responseCause rsp =
      if 12 ≤ op then 1#3
      else if op ∈ [2, 3, 4, 5, 6, 7, 9, 10] ∧ s.status.getLsbD 0 = false then 2#3
      else if (op = 1 ∨ op = 4) ∧ positive r = false then 3#3
      else if (op = 1 ∨ op = 3) ∧ finite f = false then 4#3
      else if (op = 1 ∨ op = 3 ∨ op = 4) ∧ (exactQ f r < 0 ∨ 2 ^ 32 ≤ exactQ f r) then 5#3
      else 0#3) ∧
    (responseFault rsp = true ↔ responseCause rsp ≠ 0#3) ∧
    (responseFault rsp = true → t.status = s.status ||| (1#32 <<< (responseCause rsp).toNat)) ∧
    (responseFault rsp = false → t.status = if op = 1 then s.status ||| 0x1#32 else s.status)

/-- No command clears a bit of `STATUS`, and only a successful `INIT` sets `CFG` (R18, R99). -/
def Obligations.StatusBitsNeverFall : Prop :=
  ∀ (i : Instr) (s t : State), exec i s = .next t →
    (∀ n, n < 6 → s.status.getLsbD n = true → t.status.getLsbD n = true) ∧
    (s.status.getLsbD 0 = false → t.status.getLsbD 0 = true → ∃ f r d, i = .init f r ∧ dphi f r = .ok d)

/-- R27: `fault_o` is the OR of the five sticky bits, is 0 after a reset, and once 1 stays 1 until the next reset. -/
def Obligations.FaultOutputStaysHigh : Prop :=
  (∀ s : State, faultO s = (s.status.getLsbD 1 || s.status.getLsbD 2 || s.status.getLsbD 3 || s.status.getLsbD 4 ||
    s.status.getLsbD 5)) ∧
  (∀ s : State, faultO s = false ↔ NoFaultRecorded s) ∧
  (∀ s : State, faultO (hardwareReset s) = false) ∧
  (∀ s t : State, step s = .next t → faultO s = true →
    (∃ rest, s.inputs = .reset :: rest) ∨ (∃ cw rest, s.inputs = .abandoned cw :: rest) ∨ faultO t = true)

/-! ## Frames -/

/-- The commands that only read leave every register, the table and the host's further commands as they were, wherever they
succeed. -/
def Obligations.FrameOfReadingCommands : Prop :=
  ∀ (i : Instr) (s : State), onlyReads i = true → (needsConfigured i = true → s.status.getLsbD 0 = true) →
    ∃ t d, exec i s = .next t ∧ SameOscillator s t ∧ t.status = s.status ∧ t.inputs = s.inputs ∧
      Answered s t (okResponse d) ∧ SameTable s t

/-- `SAMPLE` and `RSTP` leave every register but `phase`, the table and the host's further commands as they were, wherever they
succeed. -/
def Obligations.FrameOfPhaseCommands : Prop :=
  ∀ (i : Instr) (s : State), i = .sample ∨ i = .rstp → s.status.getLsbD 0 = true →
    ∃ t d, exec i s = .next t ∧ t.deltaPhase = s.deltaPhase ∧ t.frequency = s.frequency ∧ t.sampleRate = s.sampleRate ∧
      t.status = s.status ∧ t.inputs = s.inputs ∧ Answered s t (okResponse d) ∧ SameTable s t

/-- `SETF` and `SETR`, successful or not, leave `phase`, the register the other of them writes, `CFG`, the table and the host's
further commands as they were; where they succeed all of `STATUS` too, and where they do not the whole oscillator. -/
def Obligations.FrameOfSetters : Prop :=
  ∀ (x : Word) (s : State),
    (∃ t r, exec (.setf x) s = .next t ∧ Answered s t r ∧ t.phase = s.phase ∧ t.sampleRate = s.sampleRate ∧
      t.status.getLsbD 0 = s.status.getLsbD 0 ∧ t.inputs = s.inputs ∧ SameTable s t ∧
      (responseFault r = false → t.status = s.status) ∧ (responseFault r = true → SameOscillator s t)) ∧
    (∃ t r, exec (.setr x) s = .next t ∧ Answered s t r ∧ t.phase = s.phase ∧ t.frequency = s.frequency ∧
      t.status.getLsbD 0 = s.status.getLsbD 0 ∧ t.inputs = s.inputs ∧ SameTable s t ∧
      (responseFault r = false → t.status = s.status) ∧ (responseFault r = true → SameOscillator s t))

/-- `INIT` leaves the sticky bits, the table and the host's further commands as they were where it succeeds, and the whole
oscillator and `CFG` where it does not; a reserved opcode leaves the same. -/
def Obligations.FrameOfInitAndReserved : Prop :=
  ∀ (i : Instr) (s : State), (∃ f r, i = .init f r) ∨ (∃ op, i = .reserved op) →
    ∃ t rsp, exec i s = .next t ∧ Answered s t rsp ∧ t.inputs = s.inputs ∧ SameTable s t ∧
      (responseFault rsp = false → ∀ n, 1 ≤ n → n ≤ 5 → t.status.getLsbD n = s.status.getLsbD n) ∧
      (responseFault rsp = true → SameOscillator s t ∧ t.status.getLsbD 0 = s.status.getLsbD 0)

/-! ## Sequences of commands -/

/-- After an accepted `INIT`, and after `RSTP` on a configured engine, the next `SAMPLE` answers `ROM[0]`, the word 0.0, and
leaves the phase at the increment (R56, R75, R81; the document's reset idempotence). -/
def Obligations.FirstSampleIsZero : Prop :=
  (∀ (f r d : Word) (s : State), dphi f r = .ok d → ∃ t u, exec (.init f r) s = .next t ∧ exec .sample t = .next u ∧
    u.responses = s.responses ++ [0x000000000#36, 0x000000000#36] ∧ u.phase = d ∧ u.deltaPhase = d) ∧
  (∀ s : State, s.status.getLsbD 0 = true → ∃ t u, exec .rstp s = .next t ∧ exec .sample t = .next u ∧
    u.responses = s.responses ++ [0x000000000#36, 0x000000000#36] ∧ u.phase = s.deltaPhase ∧ u.deltaPhase = s.deltaPhase)

/-- After a successful setter the very next `SAMPLE` answers at the phase that was kept and advances by the new increment: there
is no sample of lag (R79, R80, R111). -/
def Obligations.SettersTakeEffectAtOnce : Prop :=
  ∀ (x d : Word) (s : State), s.status.getLsbD 0 = true →
    (dphi x s.sampleRate = .ok d → ∃ t u, exec (.setf x) s = .next t ∧ exec .sample t = .next u ∧ u.phase = s.phase + d ∧
      u.responses = s.responses ++ [okResponse 0, okResponse (memRead Config.params (phaseIndex Config.params s.phase))]) ∧
    (dphi s.frequency x = .ok d → ∃ t u, exec (.setr x) s = .next t ∧ exec .sample t = .next u ∧ u.phase = s.phase + d ∧
      u.responses = s.responses ++ [okResponse 0, okResponse (memRead Config.params (phaseIndex Config.params s.phase))])

/-- The closed form of a run of samples with reading commands between them, from any configured state: the phase has advanced by
the increment once per `SAMPLE`, nothing else has changed, and the sample number `j` is the entry at the phase `p0 + j*d`
(derived by the spec from R76 and R77). -/
def Obligations.RunOfSamplesClosedForm : Prop :=
  ∀ (cws : List CommandWord) (rest : List HostInput) (s : State),
    s.status.getLsbD 0 = true → s.inputs = cws.map .command ++ rest →
    (∀ cw ∈ cws, opField cw ∈ [0x0#4, 0x2#4, 0x6#4, 0x7#4, 0x8#4, 0x9#4, 0xA#4, 0xB#4]) →
    ∃ answers : List Response,
      core.run cws.length s = .next { s with
        phase := s.phase + BitVec.ofNat 32 (cws.countP (opField · == 0x2#4)) * s.deltaPhase,
        inputs := rest, responses := s.responses ++ answers } ∧
      answers.length = cws.length ∧
      ∀ k (hk : k < cws.length), opField cws[k] = 0x2#4 →
        answers[k]? = some (okResponse (memRead Config.params (phaseIndex Config.params
          (s.phase + BitVec.ofNat 32 ((cws.take k).countP (opField · == 0x2#4)) * s.deltaPhase))))

/-- The phases of a run come round after `2^32 / gcd(d, 2^32)` samples and no sooner; from phase 0 the phase first wraps on the
sample number `ceil(2^32 / d)`, counted from 1. -/
def Obligations.PhasePeriodAndFirstWrap : Prop :=
  (∀ (p d : Word) (n : Nat), d ≠ 0 →
    ((fun x => advance x d)^[n] p = p ↔ 2 ^ 32 / Nat.gcd d.toNat (2 ^ 32) ∣ n)) ∧
  (∀ d : Word, d ≠ 0 →
    let n := (2 ^ 32 + d.toNat - 1) / d.toNat
    (∀ m, m < n → ((fun x => advance x d)^[m] 0).toNat = m * d.toNat) ∧
    ((fun x => advance x d)^[n] 0).toNat + 2 ^ 32 = n * d.toNat)

/-- What a sample is worth: a finite binary32 within `2^-24` of the sine at the truncated phase, and within that and one table
step of the sine at the phase itself. -/
def Obligations.SamplesApproximateSine : Prop :=
  ∀ s : State, s.status.getLsbD 0 = true → ∃ t w, exec .sample s = .next t ∧ Answered s t (okResponse w) ∧ finite w = true ∧
    |((val w : ℚ) : ℝ) - Real.sin (2 * Real.pi * ((s.phase.toNat / 2 ^ (32 - Config.params.bitDepth) : ℕ) : ℝ) /
      2 ^ Config.params.bitDepth)| ≤ 1 / 2 ^ 24 ∧
    |((val w : ℚ) : ℝ) - Real.sin (2 * Real.pi * s.phase.toNat / 2 ^ 32)| ≤
      1 / 2 ^ 24 + 2 * Real.pi / 2 ^ Config.params.bitDepth

/-! ## What a command cannot see, and several blocks -/

/-- There is no state but the five registers: from equal registers a command gives equal registers and the same response,
whatever was answered before and whatever is still to come (R25). -/
def Obligations.NoHiddenState : Prop :=
  ∀ (i : Instr) (s s' t : State), SameOscillator s s' → s'.status = s.status → exec i s = .next t →
    ∃ t' r, exec i s' = .next t' ∧ SameOscillator t t' ∧ t'.status = t.status ∧ Answered s t r ∧ Answered s' t' r

/-- No command's behaviour depends on the sticky bits: from states that differ in them alone it gives the same oscillator, the
same `CFG` and, but for `GETS`, the same response (R22). -/
def Obligations.StickyBitsChangeNothing : Prop :=
  ∀ (i : Instr) (s s' t : State), SameOscillator s s' → s'.status.getLsbD 0 = s.status.getLsbD 0 → exec i s = .next t →
    ∃ t' r r', exec i s' = .next t' ∧ SameOscillator t t' ∧ t'.status.getLsbD 0 = t.status.getLsbD 0 ∧
      Answered s t r ∧ Answered s' t' r' ∧ (i ≠ .gets → r' = r)

/-- Several blocks on one table: whatever the interleaving, each block ends where its own inputs alone take it, and no block
sees another's (R103). That all blocks read one table is the model's choice (log 15). -/
def Obligations.BlocksDoNotInteract : Prop :=
  ∀ (ks : List Nat) (bs : Blocks), ∃ bs' : Blocks, runBlocks ks bs = .next bs' ∧ bs'.length = bs.length ∧
    ∀ (k : Nat) (s : State), bs[k]? = some s → ∃ t, core.run (ks.count k) s = .next t ∧ bs'[k]? = some t

/-! ## The listing notation (spec/30_encoding.md R50, R51) -/

/-- Lines of the spec's listings assemble to the words printed beside them. -/
def Obligations.ListingsAssemble : Prop :=
  assembleLine "INIT   440, 48000 ; start".toList = some [0x143DC0000473B8000#68] ∧
  assembleLine "Construct -0, 48000".toList = some [0x180000000473B8000#68] ∧
  assembleLine "SETF 0x7F800000".toList = some [0x37F80000000000000#68] ∧
  assembleLine "LOOKUP -256".toList = some [0x800000000FFFFFF00#68] ∧
  assembleLine "SAMPLE x 3".toList = some [0x20000000000000000#68, 0x20000000000000000#68, 0x20000000000000000#68]

/-- A decimal operand stands for the binary32 nearest to it, ties to even, with its sign. -/
def Obligations.DecimalOperandsRoundToNearest : Prop :=
  ∀ (neg : Bool) (num den : Nat) (w : Word), 0 < den → nearestWord neg num den = some w →
    let x : ℚ := (if neg then -1 else 1) * num / den
    finite w = true ∧ signBit w = neg ∧
    (∀ v : Word, finite v = true → |val w - x| ≤ |val v - x|) ∧
    (∀ v : Word, finite v = true → val v ≠ val w → |val v - x| = |val w - x| → w.getLsbD 0 = false)
end

