-- ==== Sys2Proof/Laws/Decode.lean ====
section
/-! SUPPORT. The fields of a packed command word, and what decoding one gives, command by command. -/

namespace Sys2Proof

@[simp] theorem opField_packCommand (op : BitVec 4) (a b : Word) : opField (packCommand op a b) = op := by
  change BitVec.extractLsb' 64 4 (op ++ a ++ b : BitVec (4 + 32 + 32)) = op
  apply BitVec.eq_of_getLsbD_eq
  intro i hi
  rw [BitVec.getLsbD_extractLsb', BitVec.getLsbD_append, BitVec.getLsbD_append,
    if_neg (by omega), if_neg (by omega), show 64 + i - 32 - 32 = i by omega]
  simp [hi]

@[simp] theorem aField_packCommand (op : BitVec 4) (a b : Word) : aField (packCommand op a b) = a := by
  change BitVec.extractLsb' 32 32 (op ++ a ++ b : BitVec (4 + 32 + 32)) = a
  apply BitVec.eq_of_getLsbD_eq
  intro i hi
  rw [BitVec.getLsbD_extractLsb', BitVec.getLsbD_append, BitVec.getLsbD_append]
  simp [hi]

@[simp] theorem bField_packCommand (op : BitVec 4) (a b : Word) : bField (packCommand op a b) = b := by
  change BitVec.extractLsb' 0 32 (op ++ a ++ b : BitVec (4 + 32 + 32)) = b
  apply BitVec.eq_of_getLsbD_eq
  intro i hi
  rw [BitVec.getLsbD_extractLsb', BitVec.getLsbD_append]
  simp [hi]

/-- A word is its three fields: no bit is left over (R40). -/
theorem packCommand_fields (cw : CommandWord) : packCommand (opField cw) (aField cw) (bField cw) = cw := by
  change (cw.extractLsb' 64 4 ++ cw.extractLsb' 32 32 ++ cw.extractLsb' 0 32 : BitVec (4 + 32 + 32)) = cw
  apply BitVec.eq_of_getLsbD_eq
  intro i hi
  rw [BitVec.getLsbD_append, BitVec.getLsbD_append, BitVec.getLsbD_extractLsb', BitVec.getLsbD_extractLsb',
    BitVec.getLsbD_extractLsb']
  have : i < 32 ∨ (32 ≤ i ∧ i < 64) ∨ (64 ≤ i ∧ i < 68) := by omega
  rcases this with h | ⟨h, h'⟩ | ⟨h, h'⟩
  · simp [h]
  · simp [show ¬ i < 32 by omega, show i - 32 < 32 by omega, show 32 + (i - 32) = i by omega]
  · simp [show ¬ i < 32 by omega, show ¬ i - 32 < 32 by omega, show i - 32 - 32 < 4 by omega,
      show 64 + (i - 32 - 32) = i by omega]

/-- Decoding looks at the opcode and at the two operand fields. -/
theorem decode_packCommand (op : BitVec 4) (a b : Word) :
    decode (packCommand op a b) =
      match op.toNat with
      | 0 => .nop | 1 => .init a b | 2 => .sample | 3 => .setf a | 4 => .setr b | 5 => .rstp | 6 => .getf | 7 => .getr
      | 8 => .lookup b | 9 => .getp | 10 => .getd | 11 => .gets | _ => .reserved op := by
  unfold decode
  rw [opField_packCommand, aField_packCommand, bField_packCommand] <;> rfl

end Sys2Proof
end

