-- ==== Sys2Proof/Laws/State.lean ====
section
/-! SUPPORT. One lemma per field per update of the state, each true by definition, so that no later proof unfolds an update. -/

namespace Sys2Proof.Machine

@[simp] theorem writeStatus_phase (v : Word) (s : State) : (writeStatus v s).phase = s.phase := rfl
@[simp] theorem writeStatus_deltaPhase (v : Word) (s : State) : (writeStatus v s).deltaPhase = s.deltaPhase := rfl
@[simp] theorem writeStatus_frequency (v : Word) (s : State) : (writeStatus v s).frequency = s.frequency := rfl
@[simp] theorem writeStatus_sampleRate (v : Word) (s : State) : (writeStatus v s).sampleRate = s.sampleRate := rfl
@[simp] theorem writeStatus_status (v : Word) (s : State) : (writeStatus v s).status = v &&& statusImplemented := rfl
@[simp] theorem writeStatus_inputs (v : Word) (s : State) : (writeStatus v s).inputs = s.inputs := rfl
@[simp] theorem writeStatus_responses (v : Word) (s : State) : (writeStatus v s).responses = s.responses := rfl

@[simp] theorem setConfigured_phase (s : State) : (setConfigured s).phase = s.phase := rfl
@[simp] theorem setConfigured_deltaPhase (s : State) : (setConfigured s).deltaPhase = s.deltaPhase := rfl
@[simp] theorem setConfigured_frequency (s : State) : (setConfigured s).frequency = s.frequency := rfl
@[simp] theorem setConfigured_sampleRate (s : State) : (setConfigured s).sampleRate = s.sampleRate := rfl
@[simp] theorem setConfigured_status (s : State) : (setConfigured s).status = (readStatus s ||| cfgBit) &&& statusImplemented := rfl
@[simp] theorem setConfigured_inputs (s : State) : (setConfigured s).inputs = s.inputs := rfl
@[simp] theorem setConfigured_responses (s : State) : (setConfigured s).responses = s.responses := rfl

@[simp] theorem setSticky_phase (c : Cause) (s : State) : (setSticky c s).phase = s.phase := rfl
@[simp] theorem setSticky_deltaPhase (c : Cause) (s : State) : (setSticky c s).deltaPhase = s.deltaPhase := rfl
@[simp] theorem setSticky_frequency (c : Cause) (s : State) : (setSticky c s).frequency = s.frequency := rfl
@[simp] theorem setSticky_sampleRate (c : Cause) (s : State) : (setSticky c s).sampleRate = s.sampleRate := rfl
@[simp] theorem setSticky_status (c : Cause) (s : State) : (setSticky c s).status = (readStatus s ||| stickyBit c) &&& statusImplemented := rfl
@[simp] theorem setSticky_inputs (c : Cause) (s : State) : (setSticky c s).inputs = s.inputs := rfl
@[simp] theorem setSticky_responses (c : Cause) (s : State) : (setSticky c s).responses = s.responses := rfl

@[simp] theorem emit_phase (r : Response) (s : State) : (emit r s).phase = s.phase := rfl
@[simp] theorem emit_deltaPhase (r : Response) (s : State) : (emit r s).deltaPhase = s.deltaPhase := rfl
@[simp] theorem emit_frequency (r : Response) (s : State) : (emit r s).frequency = s.frequency := rfl
@[simp] theorem emit_sampleRate (r : Response) (s : State) : (emit r s).sampleRate = s.sampleRate := rfl
@[simp] theorem emit_status (r : Response) (s : State) : (emit r s).status = s.status := rfl
@[simp] theorem emit_inputs (r : Response) (s : State) : (emit r s).inputs = s.inputs := rfl
@[simp] theorem emit_responses (r : Response) (s : State) : (emit r s).responses = s.responses ++ [r] := rfl

@[simp] theorem respond_phase (d : Word) (s : State) : (respond d s).phase = s.phase := rfl
@[simp] theorem respond_deltaPhase (d : Word) (s : State) : (respond d s).deltaPhase = s.deltaPhase := rfl
@[simp] theorem respond_frequency (d : Word) (s : State) : (respond d s).frequency = s.frequency := rfl
@[simp] theorem respond_sampleRate (d : Word) (s : State) : (respond d s).sampleRate = s.sampleRate := rfl
@[simp] theorem respond_status (d : Word) (s : State) : (respond d s).status = s.status := rfl
@[simp] theorem respond_inputs (d : Word) (s : State) : (respond d s).inputs = s.inputs := rfl
@[simp] theorem respond_responses (d : Word) (s : State) : (respond d s).responses = s.responses ++ [okResponse d] := rfl

@[simp] theorem raise_phase (c : Cause) (s : State) : (raise c s).phase = s.phase := rfl
@[simp] theorem raise_deltaPhase (c : Cause) (s : State) : (raise c s).deltaPhase = s.deltaPhase := rfl
@[simp] theorem raise_frequency (c : Cause) (s : State) : (raise c s).frequency = s.frequency := rfl
@[simp] theorem raise_sampleRate (c : Cause) (s : State) : (raise c s).sampleRate = s.sampleRate := rfl
@[simp] theorem raise_status (c : Cause) (s : State) : (raise c s).status = (readStatus s ||| stickyBit c) &&& statusImplemented := rfl
@[simp] theorem raise_inputs (c : Cause) (s : State) : (raise c s).inputs = s.inputs := rfl
@[simp] theorem raise_responses (c : Cause) (s : State) : (raise c s).responses = s.responses ++ [faultResponse c] := rfl

@[simp] theorem consume_phase (l : List HostInput) (s : State) : (consume l s).phase = s.phase := rfl
@[simp] theorem consume_deltaPhase (l : List HostInput) (s : State) : (consume l s).deltaPhase = s.deltaPhase := rfl
@[simp] theorem consume_frequency (l : List HostInput) (s : State) : (consume l s).frequency = s.frequency := rfl
@[simp] theorem consume_sampleRate (l : List HostInput) (s : State) : (consume l s).sampleRate = s.sampleRate := rfl
@[simp] theorem consume_status (l : List HostInput) (s : State) : (consume l s).status = s.status := rfl
@[simp] theorem consume_inputs (l : List HostInput) (s : State) : (consume l s).inputs = l := rfl
@[simp] theorem consume_responses (l : List HostInput) (s : State) : (consume l s).responses = s.responses := rfl

@[simp] theorem hardwareReset_phase (s : State) : (hardwareReset s).phase = 0 := rfl
@[simp] theorem hardwareReset_deltaPhase (s : State) : (hardwareReset s).deltaPhase = 0 := rfl
@[simp] theorem hardwareReset_frequency (s : State) : (hardwareReset s).frequency = 0 := rfl
@[simp] theorem hardwareReset_sampleRate (s : State) : (hardwareReset s).sampleRate = 0 := rfl
@[simp] theorem hardwareReset_status (s : State) : (hardwareReset s).status = 0 := rfl
@[simp] theorem hardwareReset_inputs (s : State) : (hardwareReset s).inputs = s.inputs := rfl
@[simp] theorem hardwareReset_responses (s : State) : (hardwareReset s).responses = s.responses := rfl

@[simp] theorem presentWord_phase (n w : Nat) (s : State) : (presentWord n w s).phase = s.phase := rfl
@[simp] theorem presentWord_deltaPhase (n w : Nat) (s : State) : (presentWord n w s).deltaPhase = s.deltaPhase := rfl
@[simp] theorem presentWord_frequency (n w : Nat) (s : State) : (presentWord n w s).frequency = s.frequency := rfl
@[simp] theorem presentWord_sampleRate (n w : Nat) (s : State) : (presentWord n w s).sampleRate = s.sampleRate := rfl
@[simp] theorem presentWord_status (n w : Nat) (s : State) : (presentWord n w s).status = s.status := rfl
@[simp] theorem presentWord_inputs (n w : Nat) (s : State) : (presentWord n w s).inputs = .command (BitVec.ofNat 68 (w % 2 ^ n)) :: s.inputs := rfl
@[simp] theorem presentWord_responses (n w : Nat) (s : State) : (presentWord n w s).responses = s.responses := rfl

/-! The two updates that are another under a second name. -/

@[simp] theorem abandonCommand_eq (cw : CommandWord) (s : State) : abandonCommand cw s = hardwareReset s := rfl
@[simp] theorem idleCycle_eq (s : State) : idleCycle s = s := rfl

/-! `STATUS` as read, after each update. -/

@[simp] theorem readStatus_emit (r : Response) (s : State) : readStatus (emit r s) = readStatus s := rfl
@[simp] theorem readStatus_respond (d : Word) (s : State) : readStatus (respond d s) = readStatus s := rfl
@[simp] theorem readStatus_consume (l : List HostInput) (s : State) : readStatus (consume l s) = readStatus s := rfl
@[simp] theorem readStatus_hardwareReset (s : State) : readStatus (hardwareReset s) = 0 := by
  simp [readStatus]
@[simp] theorem readStatus_writeStatus (v : Word) (s : State) : readStatus (writeStatus v s) = v &&& statusImplemented := by
  simp [readStatus, BitVec.and_assoc]

@[simp] theorem configured_emit (r : Response) (s : State) : configured (emit r s) = configured s := rfl
@[simp] theorem configured_respond (d : Word) (s : State) : configured (respond d s) = configured s := rfl
@[simp] theorem configured_consume (l : List HostInput) (s : State) : configured (consume l s) = configured s := rfl
@[simp] theorem configured_hardwareReset (s : State) : configured (hardwareReset s) = false := by
  simp [configured]

@[simp] theorem configured_setConfigured (s : State) : configured (setConfigured s) = true := by
  simp [configured, setConfigured, cfgBit, statusImplemented]

@[simp] theorem configured_setSticky (c : Cause) (s : State) : configured (setSticky c s) = configured s := by
  cases c <;> simp [configured, setSticky, stickyBit, causeCode, statusImplemented]

@[simp] theorem configured_raise (c : Cause) (s : State) : configured (raise c s) = configured s := by
  simp [raise]

end Sys2Proof.Machine
end

