-- ==== Sys2Proof/Laws/Ops.lean ====
section
/-! SUPPORT. For each shared operation one lemma that says what it does, and the ranges of the table's parameters. -/

namespace Sys2Proof.Machine

/-! ## Responses -/

@[simp] theorem responseFault_ok (d : Word) : responseFault (okResponse d) = false := by
  change (0#1 ++ 0#3 ++ d : BitVec (1 + 3 + 32)).getLsbD 35 = false
  rw [BitVec.getLsbD_append]
  simp

@[simp] theorem responseData_ok (d : Word) : responseData (okResponse d) = d := by
  change BitVec.extractLsb' 0 32 (0#1 ++ 0#3 ++ d : BitVec (1 + 3 + 32)) = d
  apply BitVec.eq_of_getLsbD_eq
  intro i hi
  rw [BitVec.getLsbD_extractLsb', BitVec.getLsbD_append]
  simp [hi]

@[simp] theorem responseCause_ok (d : Word) : responseCause (okResponse d) = 0 := by
  change BitVec.extractLsb' 32 3 (0#1 ++ 0#3 ++ d : BitVec (1 + 3 + 32)) = 0
  apply BitVec.eq_of_getLsbD_eq
  intro i hi
  rw [BitVec.getLsbD_extractLsb', BitVec.getLsbD_append]
  simp

@[simp] theorem responseFault_fault (c : Cause) : responseFault (faultResponse c) = true := by cases c <;> rfl
@[simp] theorem responseData_fault (c : Cause) : responseData (faultResponse c) = 0 := by cases c <;> rfl
@[simp] theorem responseCause_fault (c : Cause) : responseCause (faultResponse c) = causeCode c := by cases c <;> rfl

/-! ## The configured check and the increment's two outcomes -/

theorem whenConfigured_of_configured {s : State} (h : configured s = true) (run : State → State) :
    whenConfigured run s = run s := by simp [whenConfigured, h]

theorem whenConfigured_of_unconfigured {s : State} (h : configured s = false) (run : State → State) :
    whenConfigured run s = raise .notConfigured s := by simp [whenConfigured, h]

/-- Everything the configured check can do. -/
theorem whenConfigured_cases (run : State → State) (s : State) :
    (configured s = true ∧ whenConfigured run s = run s) ∨
    (configured s = false ∧ whenConfigured run s = raise .notConfigured s) := by
  cases h : configured s <;> simp [whenConfigured, h]

@[simp] theorem withIncrement_ok (d : Word) (commit : Word → State → State) (s : State) :
    withIncrement (.ok d) commit s = commit d s := rfl

@[simp] theorem withIncrement_error (c : Cause) (commit : Word → State → State) (s : State) :
    withIncrement (.error c) commit s = raise c s := rfl

/-- Everything a command that needs an increment can do once it has asked for it. -/
theorem withIncrement_cases (d : Except Cause Word) (commit : Word → State → State) (s : State) :
    (∃ w, d = .ok w ∧ withIncrement d commit s = commit w s) ∨
    (∃ c, d = .error c ∧ withIncrement d commit s = raise c s) := by
  cases d with
  | error c => exact .inr ⟨c, rfl, rfl⟩
  | ok w => exact .inl ⟨w, rfl, rfl⟩

/-! ## `STATUS` -/

/-- Whatever the hardware writes, bits 31:6 hold 0 afterwards. -/
theorem writeStatus_hardwired (v : Word) (s : State) : (writeStatus v s).status &&& ~~~statusImplemented = 0 := by
  simp [BitVec.and_assoc]

/-- A register whose bits 31:6 hold 0 reads as it is held. -/
theorem readStatus_of_hardwired {s : State} (h : s.status &&& ~~~statusImplemented = 0) : readStatus s = s.status := by
  ext i hi
  have := congrArg (fun v => v.getLsbD i) h
  simp [hi] at this
  simp [readStatus]
  intro hs
  simpa [hi] using this hs

/-- `CFG` is bit 0 of the register, whatever its upper bits hold. -/
theorem configured_eq_bit (s : State) : configured s = s.status.getLsbD 0 := by
  simp [configured, readStatus, statusImplemented]

/-- Masking before setting a bit that is implemented makes no difference once the write masks. -/
theorem readStatus_or_mask (s : State) (v : Word) :
    (readStatus s ||| v) &&& statusImplemented = (s.status ||| v) &&& statusImplemented := by
  unfold readStatus
  ext i hi
  simp only [BitVec.getElem_and, BitVec.getElem_or]
  cases s.status[i] <;> cases statusImplemented[i] <;> simp

/-- Fault entry, with the sticky bit set in the register as it is held (R96). -/
theorem raise_eq (c : Cause) (s : State) : raise c s =
    { s with status := (s.status ||| stickyBit c) &&& statusImplemented, responses := s.responses ++ [faultResponse c] } := by
  simp only [raise, emit, setSticky, writeStatus, readStatus_or_mask]

/-- Setting `CFG` in the register as it is held (R74). -/
theorem setConfigured_eq (s : State) :
    setConfigured s = { s with status := (s.status ||| cfgBit) &&& statusImplemented } := by
  simp only [setConfigured, writeStatus, readStatus_or_mask]

/-! ## The table -/

theorem bitDepth_pos : 1 ≤ Config.params.bitDepth := by
  have := Config.params_valid.depth_legal
  simp [Params.depthLegal] at this
  exact this.1

theorem bitDepth_le : Config.params.bitDepth ≤ 31 := by
  have := Config.params_valid.depth_legal
  simp [Params.depthLegal] at this
  exact this.2

theorem tableMask_toNat {p : Params} (h : p.depthLegal = true) : (tableMask p).toNat = 2 ^ p.bitDepth - 1 := by
  simp only [Params.depthLegal, Bool.and_eq_true, decide_eq_true_eq] at h
  have : 2 ^ p.bitDepth ≤ 2 ^ 31 := Nat.pow_le_pow_right (by norm_num) h.2
  simp only [tableMask, tableLength, BitVec.toNat_ofNat]
  omega

/-- The mask is the remainder by the table's length (R29). -/
theorem lookupIndex_toNat {p : Params} (h : p.depthLegal = true) (idx : Word) :
    (lookupIndex p idx).toNat = idx.toNat % 2 ^ p.bitDepth := by
  rw [lookupIndex, BitVec.toNat_and, tableMask_toNat h, Nat.and_two_pow_sub_one_eq_mod]

end Sys2Proof.Machine
end

