-- ==== Sys2Proof/Laws/Exec.lean ====
section
/-! SUPPORT. What one command and one step can do, said once. -/

namespace Sys2Proof.Machine

/-- The inversion lemma of `exec`: a command is rejected with a cause, or answers without touching a register, or is one of the
five ways of writing the oscillator's registers. -/
theorem exec_cases {i : Instr} {s t : State} (h : exec i s = .next t) :
    (∃ c, t = raise c s) ∨ (∃ d, t = respond d s) ∨
    (i = .sample ∧ configured s = true ∧
      t = respond (memRead Config.params (phaseIndex Config.params s.phase)) { s with phase := advance s.phase s.deltaPhase }) ∨
    (i = .rstp ∧ configured s = true ∧ t = respond 0 { s with phase := 0 }) ∨
    (∃ f d, i = .setf f ∧ configured s = true ∧ dphi f s.sampleRate = .ok d ∧
      t = respond 0 { s with frequency := f, deltaPhase := d }) ∨
    (∃ r d, i = .setr r ∧ configured s = true ∧ dphi s.frequency r = .ok d ∧
      t = respond 0 { s with sampleRate := r, deltaPhase := d }) ∨
    (∃ f r d, i = .init f r ∧ dphi f r = .ok d ∧
      t = respond 0 (setConfigured { s with frequency := f, sampleRate := r, deltaPhase := d, phase := 0 })) := by
  cases i with
  | nop => simp only [exec, execNop] at h; cases h; exact .inr (.inl ⟨_, rfl⟩)
  | gets => simp only [exec, execGets] at h; cases h; exact .inr (.inl ⟨_, rfl⟩)
  | lookup idx => simp only [exec, execLookup, lookupOn] at h; cases h; exact .inr (.inl ⟨_, rfl⟩)
  | reserved op => simp only [exec, execReserved] at h; cases h; exact .inl ⟨_, rfl⟩
  | getf =>
    simp only [exec, execGetf] at h; cases h
    rcases whenConfigured_cases (fun s => respond s.frequency s) s with ⟨_, e⟩ | ⟨_, e⟩
    · exact .inr (.inl ⟨_, e⟩)
    · exact .inl ⟨_, e⟩
  | getr =>
    simp only [exec, execGetr] at h; cases h
    rcases whenConfigured_cases (fun s => respond s.sampleRate s) s with ⟨_, e⟩ | ⟨_, e⟩
    · exact .inr (.inl ⟨_, e⟩)
    · exact .inl ⟨_, e⟩
  | getp =>
    simp only [exec, execGetp] at h; cases h
    rcases whenConfigured_cases (fun s => respond s.phase s) s with ⟨_, e⟩ | ⟨_, e⟩
    · exact .inr (.inl ⟨_, e⟩)
    · exact .inl ⟨_, e⟩
  | getd =>
    simp only [exec, execGetd] at h; cases h
    rcases whenConfigured_cases (fun s => respond s.deltaPhase s) s with ⟨_, e⟩ | ⟨_, e⟩
    · exact .inr (.inl ⟨_, e⟩)
    · exact .inl ⟨_, e⟩
  | sample =>
    simp only [exec, execSample, sampleOn] at h; cases h
    cases hc : configured s
    · exact .inl ⟨_, whenConfigured_of_unconfigured hc _⟩
    · exact .inr (.inr (.inl ⟨rfl, rfl, whenConfigured_of_configured hc _⟩))
  | rstp =>
    simp only [exec, execRstp] at h; cases h
    cases hc : configured s
    · exact .inl ⟨_, whenConfigured_of_unconfigured hc _⟩
    · exact .inr (.inr (.inr (.inl ⟨rfl, rfl, whenConfigured_of_configured hc _⟩)))
  | setf f =>
    simp only [exec, execSetf] at h; cases h
    cases hc : configured s
    · exact .inl ⟨_, whenConfigured_of_unconfigured hc _⟩
    · rw [whenConfigured_of_configured hc]
      cases hd : dphi f s.sampleRate with
      | error c => exact .inl ⟨c, rfl⟩
      | ok d => exact .inr (.inr (.inr (.inr (.inl ⟨f, d, rfl, rfl, hd, rfl⟩))))
  | setr r =>
    simp only [exec, execSetr] at h; cases h
    cases hc : configured s
    · exact .inl ⟨_, whenConfigured_of_unconfigured hc _⟩
    · rw [whenConfigured_of_configured hc]
      cases hd : dphi s.frequency r with
      | error c => exact .inl ⟨c, rfl⟩
      | ok d => exact .inr (.inr (.inr (.inr (.inr (.inl ⟨r, d, rfl, rfl, hd, rfl⟩)))))
  | init f r =>
    simp only [exec, execInit] at h; cases h
    cases hd : dphi f r with
    | error c => exact .inl ⟨c, rfl⟩
    | ok d => exact .inr (.inr (.inr (.inr (.inr (.inr ⟨f, r, d, rfl, hd, rfl⟩)))))

/-- No command faults or is refused by the machine. -/
theorem exec_is_next (i : Instr) (s : State) : ∃ t, exec i s = .next t := by cases i <;> exact ⟨_, rfl⟩

/-- Everything one step can do, by the host's next input. -/
theorem step_cases {s t : State} (h : step s = .next t) :
    (s.inputs = [] ∧ t = s) ∨
    (∃ cw rest, s.inputs = .command cw :: rest ∧ exec (decode cw) (consume rest s) = .next t) ∨
    (∃ cw rest, s.inputs = .abandoned cw :: rest ∧ t = hardwareReset (consume rest s)) ∨
    (∃ rest, s.inputs = .reset :: rest ∧ t = hardwareReset (consume rest s)) ∨
    (∃ rest, s.inputs = .idle :: rest ∧ t = consume rest s) := by
  unfold step at h
  split at h
  · cases h; exact .inl ⟨‹_›, rfl⟩
  · exact .inr (.inl ⟨_, _, ‹_›, h⟩)
  · cases h; exact .inr (.inr (.inl ⟨_, _, ‹_›, rfl⟩))
  · cases h; exact .inr (.inr (.inr (.inl ⟨_, ‹_›, rfl⟩)))
  · cases h; exact .inr (.inr (.inr (.inr ⟨_, ‹_›, rfl⟩)))

end Sys2Proof.Machine
end

