-- ==== Sys2Proof/Laws/Increment.lean ====
section
/-! SUPPORT. What the phase increment computer can answer, and the ranges of a binary32's parts. -/

namespace Sys2Proof.Machine

theorem exponentField_lt (w : Word) : exponentField w < 256 := by
  simpa [exponentField] using (w.extractLsb' 23 8).isLt

theorem fractionField_lt (w : Word) : fractionField w < 2 ^ 23 := by
  simpa [fractionField] using (w.extractLsb' 0 23).isLt

theorem significand_lt (w : Word) : significand w < 2 ^ 24 := by
  have := fractionField_lt w
  unfold significand
  split <;> omega

/-- Reading `val` once its three parts are known. -/
theorem val_of_parts {w : Word} {s : Bool} {M : Nat} {E : Int} (hs : signBit w = s) (hM : significand w = M)
    (hE : exponent w = E) : val w = (if s then -1 else 1) * (M : ℚ) * (2 : ℚ) ^ E := by
  rw [val, hs, hM, hE]

/-- Everything `DPHI` can answer (R67). -/
theorem dphi_cases (f r : Word) :
    (positive r = false ∧ dphi f r = .error .badSampleRate) ∨
    (positive r = true ∧ finite f = false ∧ dphi f r = .error .badFrequency) ∨
    (positive r = true ∧ finite f = true ∧ (unboundedIncrement f r < 0 ∨ 2 ^ 32 ≤ unboundedIncrement f r) ∧
      dphi f r = .error .incrementRange) ∨
    (positive r = true ∧ finite f = true ∧ 0 ≤ unboundedIncrement f r ∧ unboundedIncrement f r < 2 ^ 32 ∧
      dphi f r = .ok (BitVec.ofNat 32 (unboundedIncrement f r).toNat)) := by
  cases hr : positive r
  · simp [dphi, hr]
  cases hf : finite f
  · simp [dphi, hr, hf]
  by_cases h : unboundedIncrement f r < 0 ∨ 2 ^ 32 ≤ unboundedIncrement f r
  · exact .inr (.inr (.inl ⟨rfl, rfl, h, by simp only [dphi, hr, hf]; simp only [Bool.not_true]; exact if_pos h⟩))
  · refine .inr (.inr (.inr ⟨rfl, rfl, by omega, by omega, ?_⟩))
    simp only [dphi, hr, hf, Bool.not_true]
    exact if_neg h

/-- The only way `DPHI` succeeds, and what it gives. -/
theorem dphi_eq_ok {f r d : Word} (h : dphi f r = .ok d) :
    positive r = true ∧ finite f = true ∧ 0 ≤ unboundedIncrement f r ∧ unboundedIncrement f r < 2 ^ 32 ∧
      unboundedIncrement f r = (d.toNat : Int) := by
  rcases dphi_cases f r with ⟨_, e⟩ | ⟨_, _, e⟩ | ⟨_, _, _, e⟩ | ⟨hr, hf, h0, h1, e⟩
  · rw [e] at h; cases h
  · rw [e] at h; cases h
  · rw [e] at h; cases h
  · rw [e] at h
    cases h
    refine ⟨hr, hf, h0, h1, ?_⟩
    rw [BitVec.toNat_ofNat, Nat.mod_eq_of_lt (by omega)]
    omega

end Sys2Proof.Machine
end

