-- ==== Sys2Proof/Laws/PerInstr.lean ====
section
/-! SUPPORT. Statements about every command as syntax, one lemma per constructor of `Instr`. -/

namespace Sys2Proof.Laws.OpcodeField

/-- The canonical word of a command holds its opcode of R43 (R47) in bits 67:64, and a decoder that matches on those bits alone
(R42) finds it there. -/
def Statement (i : Instr) : Prop := opField (encode i) = opcode i

theorem nop : Statement .nop := opField_packCommand _ _ _
theorem init (f r : Word) : Statement (.init f r) := opField_packCommand _ _ _
theorem sample : Statement .sample := opField_packCommand _ _ _
theorem setf (f : Word) : Statement (.setf f) := opField_packCommand _ _ _
theorem setr (r : Word) : Statement (.setr r) := opField_packCommand _ _ _
theorem rstp : Statement .rstp := opField_packCommand _ _ _
theorem getf : Statement .getf := opField_packCommand _ _ _
theorem getr : Statement .getr := opField_packCommand _ _ _
theorem lookup (idx : Word) : Statement (.lookup idx) := opField_packCommand _ _ _
theorem getp : Statement .getp := opField_packCommand _ _ _
theorem getd : Statement .getd := opField_packCommand _ _ _
theorem gets : Statement .gets := opField_packCommand _ _ _
theorem reserved (op : BitVec 4) : Statement (.reserved op) := opField_packCommand _ _ _

end Sys2Proof.Laws.OpcodeField
end

