-- ==== Sys2Proof/Tests/Slice0.lean ====
section
/-! SUPPORT. The model's own tests: small facts whose expected results come from spec/95_test_vectors.md and the examples of the
command rules, and for each obligation with hypotheses a witness that meets them. -/

namespace Sys2Proof.Tests

open Sys2Proof.Machine Sys2Proof.Safety

/-! ## States and tables to test on -/

/-- The state with the five registers given, nothing presented and nothing answered. -/
def regs (phase delta freq rate status : Word) : State := ⟨phase, delta, freq, rate, status, [], []⟩

/-- `S0` to `S2` of spec/95_test_vectors.md section 4. -/
def s0 : State := regs 0 0 0 0 0
def s1 : State := regs 0 0x0258BF25#32 0x43DC0000#32 0x473B8000#32 1
def s2 : State := regs 0x04B17E4A#32 0x0258BF25#32 0x43DC0000#32 0x473B8000#32 1

/-- A table for `B = 10` with the canonical entries the spec prints (R57). -/
def table10 : Params := ⟨10, fun k => (canonicalSelected10.lookup k).getD 0⟩

/-- The state after a command, if it gives one. -/
def after : Host.Outcome State Fault Refusal → Option State
  | .next t => some t
  | _ => none

/-- `s` with one response answered. -/
def answered (r : Response) (s : State) : State := { s with responses := [r] }

/-! ## Well-formedness: the ill-formed terms are refused -/

theorem test_reserved_with_command_opcode_ill_formed : (Instr.reserved 0xB#4).wellFormed = false := by decide
theorem test_reserved_opcodes_well_formed :
    (Instr.reserved 0xC#4).wellFormed = true ∧ (Instr.reserved 0xF#4).wellFormed = true := by decide
theorem test_depth_outside_range_refused :
    (⟨0, fun _ => 0⟩ : Params).depthLegal = false ∧ (⟨32, fun _ => 0⟩ : Params).depthLegal = false := by decide
theorem test_depth_bounds_legal :
    (⟨1, fun _ => 0⟩ : Params).depthLegal = true ∧ (⟨31, fun _ => 0⟩ : Params).depthLegal = true := by decide

/-! ## Decoding: words written out from R43 and spec/95_test_vectors.md section 4 -/

theorem test_decode_nop_junk : decode 0x0FFFFFFFFFFFFFFFF#68 = .nop := by decide
theorem test_decode_init : decode 0x143DC0000473B8000#68 = .init 0x43DC0000#32 0x473B8000#32 := by decide
theorem test_decode_sample_junk : decode 0x2FFFFFFFFFFFFFFFF#68 = .sample := by decide
theorem test_decode_setf_junk : decode 0x3445C00007FC00000#68 = .setf 0x445C0000#32 := by decide
theorem test_decode_setr_junk : decode 0x47FC00000472C4400#68 = .setr 0x472C4400#32 := by decide
theorem test_decode_rstp : decode 0x50000000000000000#68 = .rstp := by decide
theorem test_decode_getf : decode 0x60000000000000000#68 = .getf := by decide
theorem test_decode_getr : decode 0x70000000000000000#68 = .getr := by decide
theorem test_decode_lookup_junk : decode 0x8DEADBEEF00000100#68 = .lookup 0x100#32 := by decide
theorem test_decode_getp : decode 0x90000000000000000#68 = .getp := by decide
theorem test_decode_getd : decode 0xA0000000000000000#68 = .getd := by decide
theorem test_decode_gets_junk : decode 0xB0000000000000001#68 = .gets := by decide
theorem test_decode_reserved :
    decode 0xC123456789ABCDEF0#68 = .reserved 0xC#4 ∧ decode 0xFFFFFFFFFFFFFFFFF#68 = .reserved 0xF#4 := by decide
theorem test_encode_canonical :
    encode (.init 0x43DC0000#32 0x473B8000#32) = 0x143DC0000473B8000#68 ∧ encode (.setf 0x445C0000#32) = 0x3445C000000000000#68 ∧
    encode (.setr 0x472C4400#32) = 0x400000000472C4400#68 ∧ encode (.lookup 0x500#32) = 0x80000000000000500#68 := by decide
theorem test_table_word :
    decodeTableWord 72 0x90000000000000000 = some .getp ∧ decodeTableWord 72 0x100000000000000000 = none := by decide

/-! ## Reading binary32 (R62) -/

theorem test_float_classes :
    [0x80000000#32, 0x007FFFFF#32, 0x00800000#32, 0x7F7FFFFF#32, 0xFF800000#32, 0x7F800001#32].map floatClass =
      [.zero, .subnormal, .normal, .normal, .infinity, .nan] := by decide
theorem test_positive_boundaries :
    [0x00000000#32, 0x00000001#32, 0x7F7FFFFF#32, 0x7F800000#32, 0x7FC00000#32, 0x80000000#32, 0x80000001#32].map positive =
      [false, true, true, false, false, false, false] := by decide

/-- `440` and `48000` as the document writes them are these words. -/
theorem val_440 : val 0x43DC0000#32 = 440 := by
  rw [val_of_parts (s := false) (M := 14417920) (E := -15) (by decide) (by decide) (by decide)]; norm_num
theorem val_48000 : val 0x473B8000#32 = 48000 := by
  rw [val_of_parts (s := false) (M := 12288000) (E := -8) (by decide) (by decide) (by decide)]; norm_num
theorem val_24000 : val 0x46BB8000#32 = 24000 := by
  rw [val_of_parts (s := false) (M := 12288000) (E := -9) (by decide) (by decide) (by decide)]; norm_num
theorem val_neg_one : val 0xBF800000#32 = -1 := by
  rw [val_of_parts (s := true) (M := 8388608) (E := -23) (by decide) (by decide) (by decide)]; norm_num

/-! ## The increment (spec/95_test_vectors.md section 3) -/

theorem test_dphi_document_scenario : dphi 0x43DC0000#32 0x473B8000#32 = .ok 39370533#32 := by decide
theorem test_dphi_subnormals : dphi 0x00000001#32 0x00000003#32 = .ok 0x55555555#32 := by decide
theorem test_dphi_extremes :
    dphi 0x7F7FFFFE#32 0x7F7FFFFF#32 = .ok 0xFFFFFEFF#32 ∧ dphi 0x3F800000#32 0x7F7FFFFF#32 = .ok 0#32 := by decide
theorem test_dphi_negative_floor :
    unboundedIncrement 0xBF800000#32 0x473B8000#32 = -89479 ∧ unboundedIncrement 0x80000001#32 0x473B8000#32 = -1 ∧
    unboundedIncrement 0x80000000#32 0x473B8000#32 = 0 := by decide
theorem test_dphi_rejections :
    dphi 0x7FC00000#32 0x00000000#32 = .error .badSampleRate ∧ dphi 0x7FC00000#32 0x473B8000#32 = .error .badFrequency ∧
    dphi 0x473B8000#32 0x473B8000#32 = .error .incrementRange ∧ dphi 0x80000001#32 0x473B8000#32 = .error .incrementRange := by
  decide

/-! ## The table and the indexer (spec/95_test_vectors.md sections 2.1 to 2.3) -/

theorem test_index_truncates :
    [1, 2, 3, 10, 12, 31].map (fun B => (phaseIndex ⟨B, fun _ => 0⟩ 0x0258BF25#32).toNat) = [0, 0, 0, 9, 37, 19685266] := by decide
theorem test_index_top_of_range :
    [1, 2, 3, 10, 12, 31].map (fun B => (phaseIndex ⟨B, fun _ => 0⟩ 0xFFFFFFFF#32).toNat) =
      [1, 3, 7, 1023, 4095, 2147483647] := by decide
theorem test_lookup_wraps : lookupOn table10 0x500#32 s0 = answered 0x03F800000#36 s0 := by decide
theorem test_lookup_minus_one : lookupOn (canonicalParams 3) 0xFFFFFFFF#32 s0 = answered 0x0BF3504F3#36 s0 := by decide

/-! ## The commands (spec/95_test_vectors.md section 4), one step each -/

theorem test_nop : after (exec .nop s2) = some (answered 0x000000000#36 s2) := by decide
theorem test_init : after (exec (.init 0x43DC0000#32 0x473B8000#32) s2) = some (answered 0x000000000#36 s1) := by decide
theorem test_init_rejected : after (exec (.init 0x447A0000#32 0x7F800000#32) s2) =
    some (answered 0xB00000000#36 { s2 with status := 0x00000009#32 }) := by decide
theorem test_sample_index_before_advance : sampleOn table10 { s1 with phase := 0x0258BF25#32 } =
    answered 0x03D621469#36 s2 := by decide
theorem test_sample_wraps : sampleOn table10 { s1 with phase := 0xFFC962C1#32 } =
    answered 0x0BBC90F88#36 { s1 with phase := 0x022221E6#32 } := by decide
theorem test_setf_keeps_phase : after (exec (.setf 0x445C0000#32) s2) =
    some (answered 0x000000000#36 (regs 0x04B17E4A#32 0x04B17E4B#32 0x445C0000#32 0x473B8000#32 1)) := by decide
theorem test_setf_negative : after (exec (.setf 0xBF800000#32) s2) =
    some (answered 0xD00000000#36 { s2 with status := 0x00000021#32 }) := by decide
theorem test_setr : after (exec (.setr 0x472C4400#32) s2) =
    some (answered 0x000000000#36 (regs 0x04B17E4A#32 0x028DDFB9#32 0x43DC0000#32 0x472C4400#32 1)) := by decide
theorem test_setr_unconfigured_operand_not_examined : after (exec (.setr 0#32) s0) =
    some (answered 0xA00000000#36 { s0 with status := 0x00000004#32 }) := by decide
theorem test_rstp : after (exec .rstp s2) = some (answered 0x000000000#36 s1) := by decide
theorem test_getf : after (exec .getf s2) = some (answered 0x043DC0000#36 s2) := by decide
theorem test_getr : after (exec .getr s2) = some (answered 0x0473B8000#36 s2) := by decide
theorem test_getp : after (exec .getp s2) = some (answered 0x004B17E4A#36 s2) := by decide
theorem test_getd : after (exec .getd s2) = some (answered 0x00258BF25#36 s2) := by decide
theorem test_gets_keeps_sticky : after (exec .gets (regs 0 0 0 0 0x3D#32)) =
    some (answered 0x00000003D#36 (regs 0 0 0 0 0x3D#32)) := by decide
theorem test_reserved : after (exec (decode 0xE43DC0000473B8000#68) s2) =
    some (answered 0x900000000#36 { s2 with status := 0x00000003#32 }) := by decide
theorem test_reset : after (step { regs 0x070A3D6F#32 0x0258BF25#32 0x43DC0000#32 0x473B8000#32 0x3F#32 with inputs := [.reset] }) =
    some s0 := by decide
theorem test_fault_o_ignores_cfg : faultO s1 = false ∧ faultO (regs 0 0 0 0 0x20#32) = true := by decide
theorem test_fetch_word_is_next_command :
    after (step (State.reset.withFetchWord 72 0x20000000000000000)) = some (answered 0xA00000000#36 { s0 with status := 4 }) := by
  decide

/-! ## The listing notation -/

theorem test_assemble_init : assembleLine "INIT   440, 48000 ; start".toList = some [0x143DC0000473B8000#68] := by decide
theorem test_assemble_alias_and_minus_zero :
    assembleLine "Construct -0, 48000".toList = some [0x180000000473B8000#68] := by decide
theorem test_assemble_rounding :
    assembleLine "SETF 261.63".toList = some [0x34382D0A400000000#68] ∧
    assembleLine "SETF 47999.996".toList = some [0x3473B7FFF00000000#68] := by decide
theorem test_assemble_negative_index : assembleLine "LOOKUP -256".toList = some [0x800000000FFFFFF00#68] := by decide
theorem test_assemble_refuses_missing_operand : assembleLine "SETF".toList = none := by decide

/-! ## Witnesses: for each obligation with hypotheses, states and operands that meet them -/

/-- `S1` is a configured state that meets the invariant. -/
theorem s1_inv : BlockInv s1 := by
  refine ⟨by decide, fun _ => ⟨by decide, by decide, ?_⟩, fun h => absurd h (by decide)⟩
  change ⌊val 0x43DC0000#32 * 2 ^ 32 / val 0x473B8000#32⌋ = _
  rw [val_440, val_48000, Int.floor_eq_iff]
  norm_num [s1, regs]

theorem s0_inv : BlockInv s0 := ⟨by decide, fun h => absurd h (by decide), fun _ => by decide⟩

theorem exactQ_440_48000 : exactQ 0x43DC0000#32 0x473B8000#32 = 39370533 := s1_inv.2.1 (by decide) |>.2.2

theorem exactQ_neg_one : exactQ 0xBF800000#32 0x473B8000#32 = -89479 := by
  rw [exactQ, val_neg_one, val_48000, Int.floor_eq_iff]; norm_num

theorem test_witness_DecodeEncodeRoundTrip :
    (Instr.init 0xFFFFFFFF#32 0#32).wellFormed = true ∧ (Instr.reserved 0xC#4).wellFormed = true := by decide
theorem test_witness_IgnoredBitsChangeNothing :
    0x0#4 ∉ [0x1#4, 0x3#4, 0x4#4, 0x8#4] ∧ 0xF#4 ∉ [0x1#4, 0x3#4, 0x4#4, 0x8#4] ∧ 0x0#4 < 0xC#4 ∧ 0xB#4 < 0xC#4 := by decide
theorem test_witness_AdderWrapsModulo : ∃ t, exec .sample s1 = .next t := ⟨_, rfl⟩
theorem test_witness_TableWordsDecode :
    (68 ≤ 68 ∧ 2 ^ 68 - 1 < 2 ^ 68) ∧ (68 ≤ 72 ∧ 0xF0000000000000000 < 2 ^ 68) ∧ 2 ^ 68 ≤ 2 ^ 68 % 2 ^ 72 := by norm_num
theorem test_witness_StepRunsDecodedCommand :
    ({ s1 with inputs := [.command 0#68] } : State).inputs = .command 0#68 :: [] ∧ (2 ^ 68 - 1 < 2 ^ 68) ∧ s1.inputs = [] ∧
    ({ s1 with inputs := [.idle, .reset] } : State).inputs = .idle :: [.reset] := by decide
theorem test_witness_ResetLeavesZeros : ({ s2 with inputs := [.reset, .idle] } : State).inputs = .reset :: [.idle] := by decide
theorem test_witness_ResetAbandonsCommand :
    ({ s2 with inputs := [.abandoned 1#68] } : State).inputs = .abandoned 1#68 :: [] := by decide
theorem test_witness_InvariantKeptByEveryStep :
    (BlockInv s1 ∧ ∃ t, step s1 = .next t) ∧
    (BlockInv s0 ∧ ∃ t, step { s0 with inputs := [.command 0x143DC0000473B8000#68] } = .next t) :=
  ⟨⟨s1_inv, _, rfl⟩, s0_inv, _, rfl⟩

/-- The hypotheses of R62's six clauses, at the ends of each class. -/
theorem test_witness_BinaryWordsReadByClass :
    (exponentField 0x80000000#32 = 0 ∧ fractionField 0x80000000#32 = 0) ∧
    (exponentField 0x007FFFFF#32 = 0 ∧ fractionField 0x007FFFFF#32 ≠ 0) ∧
    (exponentField 0x00800000#32 = 1 ∧ exponentField 0x7F7FFFFF#32 = 254) ∧
    (exponentField 0xFF800000#32 = 255 ∧ fractionField 0xFF800000#32 = 0) ∧
    (exponentField 0x7F800001#32 = 255 ∧ fractionField 0x7F800001#32 ≠ 0) ∧ finite 0x7F7FFFFF#32 = true := by decide
theorem test_witness_IncrementIsExactFloor :
    (finite 0x80000001#32 = true ∧ positive 0x00000001#32 = true) ∧ finite 0x7F7FFFFF#32 = true ∧ positive 0x7F7FFFFF#32 = true := by
  decide
theorem test_witness_IncrementResolution :
    dphi 0x43DC0000#32 0x473B8000#32 = .ok 0x0258BF25#32 ∧ dphi 0x3F800000#32 0x7F7FFFFF#32 = .ok 0#32 := by decide
theorem test_witness_IncrementMonotoneInRatio :
    dphi 0x43DC0000#32 0x473B8000#32 = .ok 0x0258BF25#32 ∧ dphi 0x46BB8000#32 0x473B8000#32 = .ok 0x80000000#32 ∧
    val 0x43DC0000#32 ≤ val 0x46BB8000#32 ∧ val 0x46BB8000#32 = val 0x473B8000#32 / 2 := by
  rw [val_440, val_24000, val_48000]
  exact ⟨by decide, by decide, by norm_num, by norm_num⟩
theorem test_witness_PhaseIndexIsTopBits :
    (canonicalParams 1).depthLegal = true ∧ (⟨31, fun _ => 0⟩ : Params).depthLegal = true ∧
    ∀ n, 32 - (canonicalParams 1).bitDepth ≤ n → (0x7FFFFFFF#32).getLsbD n = (0x00000000#32).getLsbD n := by
  refine ⟨by decide, by decide, fun n hn => ?_⟩
  change 31 ≤ n at hn
  by_cases h : n = 31
  · subst h; decide
  · simp [BitVec.getLsbD_of_ge (0x7FFFFFFF#32) n (by omega)]
theorem test_witness_TableIndexWraps : (canonicalParams 2).depthLegal = true := by decide
theorem test_witness_LookupAnswersTableEntry :
    (-2 ^ 31 ≤ (-2 ^ 31 : ℤ) ∧ (-2 ^ 31 : ℤ) < 2 ^ 32) ∧ -2 ^ 31 ≤ (2 ^ 32 - 1 : ℤ) ∧ (2 ^ 32 - 1 : ℤ) < 2 ^ 32 := by decide
theorem test_witness_TableReadsNeverChange :
    (∃ t, step { s2 with inputs := [.reset] } = .next t) ∧ ∃ t, step { s2 with inputs := [.command 0x20000000000000000#68] } = .next t :=
  ⟨⟨_, rfl⟩, _, rfl⟩

/-- The printed table for `B = 1` is canonical: both of its sines are exactly 0. -/
theorem test_witness_CanonicalTablesAreAdmissible : (canonicalParams 1).depthLegal = true ∧ (canonicalParams 1).Canonical := by
  refine ⟨by decide, fun k hk => ?_⟩
  have hz : val 0x00000000#32 = 0 := by
    rw [val_of_parts (s := false) (M := 0) (E := -149) (by decide) (by decide) (by decide)]; norm_num
  have hs : Real.sin (2 * Real.pi * k / 2 ^ (canonicalParams 1).bitDepth) = 0 := by
    have : 2 * Real.pi * k / 2 ^ (canonicalParams 1).bitDepth = (k : ℝ) * Real.pi := by
      simp only [canonicalParams]; ring
    rw [this]; exact Real.sin_nat_mul_pi k
  have hr : (canonicalParams 1).rom k = 0x00000000#32 := by
    have : k < 2 := by simpa [canonicalParams] using hk
    interval_cases k <;> decide
  rw [hs, hr]
  refine ⟨by decide, fun v _ => by simp [hz], fun v _ hv h => ?_, fun _ => rfl, fun h => absurd h (lt_irrefl _),
    fun h => absurd h (lt_irrefl _)⟩
  exfalso
  simp only [hz, Rat.cast_zero, sub_zero, abs_zero] at h
  exact hv (by rw [hz]; exact_mod_cast (abs_eq_zero.mp h.symm))

theorem test_witness_InitConstructsOrRejects :
    positive 0x80000000#32 = false ∧ (positive 0x473B8000#32 = true ∧ finite 0x7F800000#32 = false) ∧
    (positive 0x473B8000#32 = true ∧ finite 0xBF800000#32 = true ∧ exactQ 0xBF800000#32 0x473B8000#32 < 0) ∧
    (positive 0x473B8000#32 = true ∧ finite 0x43DC0000#32 = true ∧ 0 ≤ exactQ 0x43DC0000#32 0x473B8000#32 ∧
      exactQ 0x43DC0000#32 0x473B8000#32 < 2 ^ 32) := by
  rw [exactQ_neg_one, exactQ_440_48000]; decide
/-- The two hypotheses of the statements about `SAMPLE`, `RSTP`, `GETF`, `GETR`, `GETP`, `GETD` and of
`SamplesApproximateSine`. -/
theorem test_witness_configured_and_not : s1.status.getLsbD 0 = true ∧ s0.status.getLsbD 0 = false := by decide
theorem test_witness_SetfRecomputesOrRejects :
    s1.status.getLsbD 0 = true ∧ positive s1.sampleRate = true ∧ finite 0x7FC00000#32 = false ∧
    (finite 0xBF800000#32 = true ∧ val 0xBF800000#32 < 0) ∧ (finite 0x473B8000#32 = true ∧ val s1.sampleRate ≤ val 0x473B8000#32) ∧
    (finite 0x46BB8000#32 = true ∧ 0 ≤ val 0x46BB8000#32 ∧ val 0x46BB8000#32 < val s1.sampleRate) := by
  have h : val s1.sampleRate = 48000 := val_48000
  rw [h, val_neg_one, val_48000, val_24000]
  exact ⟨by decide, by decide, by decide, ⟨by decide, by norm_num⟩, ⟨by decide, le_refl _⟩, by decide, by norm_num, by norm_num⟩
theorem test_witness_SetrRecomputesOrRejects :
    s1.status.getLsbD 0 = true ∧ finite s1.frequency = true ∧ positive 0x00000000#32 = false ∧
    (positive 0x43DC0000#32 = true ∧ 0 < val s1.frequency ∧ val 0x43DC0000#32 ≤ val s1.frequency) ∧
    (positive 0x46BB8000#32 = true ∧ 0 ≤ val s1.frequency ∧ val s1.frequency < val 0x46BB8000#32) := by
  have h : val s1.frequency = 440 := val_440
  rw [h, val_440, val_24000]
  exact ⟨by decide, by decide, by decide, ⟨by decide, by norm_num, le_refl _⟩, by decide, by norm_num, by norm_num⟩
theorem test_witness_GetdAnswersIncrement : s1.status.getLsbD 0 = true ∧ BlockInv s1 := ⟨by decide, s1_inv⟩
theorem test_witness_ReservedOpcodesRejected : 0xC#4 ≤ 0xC#4 ∧ 0xC#4 ≤ 0xF#4 := by decide
theorem test_witness_FaultsChangeOnlyStickyBit :
    ∃ t, exec .sample s0 = .next t ∧ Answered s0 t 0xA00000000#36 ∧ responseFault 0xA00000000#36 = true :=
  ⟨_, rfl, rfl, by decide⟩
theorem test_witness_ConfiguredCheckOpensEight :
    (needsConfigured (.setr 0) = true ∧ s0.status.getLsbD 0 = false) ∧ (Instr.reserved 0xC#4).wellFormed = true ∧
    needsConfigured .gets = false ∧ ∃ t, exec .gets s0 = .next t ∧ Answered s0 t (okResponse 0) :=
  ⟨by decide, by decide, by decide, _, rfl, rfl⟩
theorem test_witness_OneCauseInOrder : BlockInv s0 ∧ BlockInv s1 := ⟨s0_inv, s1_inv⟩
theorem test_witness_StatusBitsNeverFall :
    (∃ t, exec .gets s1 = .next t ∧ s1.status.getLsbD 0 = true) ∧
    ∃ t, exec (.init 0x43DC0000#32 0x473B8000#32) s0 = .next t ∧ s0.status.getLsbD 0 = false ∧ t.status.getLsbD 0 = true :=
  ⟨⟨_, rfl, by decide⟩, _, rfl, by decide, by decide⟩
theorem test_witness_FaultOutputStaysHigh : ∃ t, step (regs 0 0 0 0 2) = .next t ∧ faultO (regs 0 0 0 0 2) = true :=
  ⟨_, rfl, by decide⟩
theorem test_witness_FrameOfReadingCommands :
    (onlyReads .getp = true ∧ s1.status.getLsbD 0 = true) ∧ onlyReads .nop = true ∧ needsConfigured .nop = false := by decide
theorem test_witness_FrameOfPhaseCommands :
    (Instr.sample = .sample ∨ Instr.sample = .rstp) ∧ (Instr.rstp = .sample ∨ Instr.rstp = .rstp) ∧ s1.status.getLsbD 0 = true := by
  decide
theorem test_witness_FrameOfSetters :
    (responseFault (okResponse 0) = false ∧ ∃ t, exec (.setf 0x46BB8000#32) s1 = .next t ∧ Answered s1 t (okResponse 0)) ∧
    (responseFault 0xC00000000#36 = true ∧ ∃ t, exec (.setf 0x7F800000#32) s1 = .next t ∧ Answered s1 t 0xC00000000#36) :=
  ⟨⟨by decide, _, rfl, rfl⟩, by decide, _, rfl, rfl⟩
theorem test_witness_FrameOfInitAndReserved :
    (∃ f r, Instr.init 1 2 = .init f r) ∧ (∃ op, Instr.reserved 0xC#4 = .reserved op) ∧
    (∃ t, exec (.init 0x43DC0000#32 0x473B8000#32) s0 = .next t ∧ Answered s0 t (okResponse 0)) ∧
    ∃ t, exec (.init 0x43DC0000#32 0#32) s0 = .next t ∧ Answered s0 t 0xB00000000#36 :=
  ⟨⟨1, 2, rfl⟩, ⟨_, rfl⟩, ⟨_, rfl, rfl⟩, _, rfl, rfl⟩
theorem test_witness_FirstSampleIsZero :
    dphi 0x43DC0000#32 0x473B8000#32 = .ok 0x0258BF25#32 ∧ s2.status.getLsbD 0 = true := by decide
theorem test_witness_SettersTakeEffectAtOnce :
    s2.status.getLsbD 0 = true ∧ dphi 0x445C0000#32 s2.sampleRate = .ok 0x04B17E4B#32 ∧
    dphi s2.frequency 0x472C4400#32 = .ok 0x028DDFB9#32 := by decide
/-- `SAMPLE`, `GETP`, `SAMPLE` with ignored bits set. -/
def runWords : List CommandWord := [0x20000000000000000#68, 0x90000000000000000#68, 0x2FFFFFFFFFFFFFFFF#68]
theorem test_witness_RunOfSamplesClosedForm :
    s1.status.getLsbD 0 = true ∧
    ({ s1 with inputs := runWords.map .command ++ [.idle] } : State).inputs = runWords.map .command ++ [.idle] ∧
    ∀ cw ∈ runWords, opField cw ∈ [0x0#4, 0x2#4, 0x6#4, 0x7#4, 0x8#4, 0x9#4, 0xA#4, 0xB#4] := by
  refine ⟨by decide, rfl, fun cw h => ?_⟩
  simp only [runWords, List.mem_cons, List.not_mem_nil, or_false] at h
  rcases h with rfl | rfl | rfl <;> decide
theorem test_witness_PhasePeriodAndFirstWrap : (0x80000000#32 : Word) ≠ 0 ∧ (1#32 : Word) ≠ 0 := by decide
theorem test_witness_NoHiddenState :
    SameOscillator s1 { s1 with responses := [0], inputs := [.idle] } ∧
    ({ s1 with responses := [0], inputs := [.idle] } : State).status = s1.status ∧ ∃ t, exec .sample s1 = .next t :=
  ⟨by decide, rfl, _, rfl⟩
theorem test_witness_StickyBitsChangeNothing :
    SameOscillator s1 { s1 with status := 0x3F#32 } ∧
    ({ s1 with status := 0x3F#32 } : State).status.getLsbD 0 = s1.status.getLsbD 0 ∧ Instr.sample ≠ .gets ∧
    ∃ t, exec .sample s1 = .next t := ⟨by decide, by decide, by decide, _, rfl⟩
theorem test_witness_BlocksDoNotInteract : ([s1, s0] : Blocks)[1]? = some s0 := by decide
theorem test_witness_DecimalOperandsRoundToNearest :
    0 < 100 ∧ nearestWord false 26163 100 = some 0x4382D0A4#32 ∧ nearestWord true 0 1 = some 0x80000000#32 := by decide

end Sys2Proof.Tests
end

/-! SUPPORT. The bits of `STATUS` along a command and along a step, and `fault_o` (spec/10_state.md R18, R27, R96, R99). -/

namespace Sys2Proof.Proofs

open Sys2Proof.Machine Sys2Proof.Safety

/-! ## What a command does to `STATUS` -/

/-- A command either leaves `STATUS` as it is or sets the bits of a mask in it; a rejection sets a sticky bit and an accepted
`INIT` sets `CFG` (R96, R99). -/
theorem exec_status_cases {i : Instr} {s t : State} (h : exec i s = .next t) :
    t.status = s.status ∨ ∃ v, t.status = (s.status ||| v) &&& statusImplemented := by
  rcases exec_cases h with ⟨c, rfl⟩ | ⟨_, rfl⟩ | ⟨-, -, rfl⟩ | ⟨-, -, rfl⟩ | ⟨_, _, -, -, -, rfl⟩ |
    ⟨_, _, -, -, -, rfl⟩ | ⟨_, _, _, -, -, rfl⟩
  case inl => exact .inr ⟨stickyBit c, by rw [raise_eq]⟩
  case inr.inr.inr.inr.inr.inr => exact .inr ⟨cfgBit, by rw [setConfigured_eq]; rfl⟩
  all_goals exact .inl rfl

theorem getLsbD_statusImplemented {n : Nat} (hn : n < 6) : statusImplemented.getLsbD n = true := by
  interval_cases n <;> rfl

/-- No command clears an implemented bit of `STATUS` (R18, R99). -/
theorem exec_keeps_status_bit {i : Instr} {s t : State} (h : exec i s = .next t) {n : Nat} (hn : n < 6)
    (hb : s.status.getLsbD n = true) : t.status.getLsbD n = true := by
  rcases exec_status_cases h with e | ⟨v, e⟩
  · rwa [e]
  · simp [e, hb, getLsbD_statusImplemented hn]

/-! ## `fault_o` -/

theorem faultO_eq_bits (s : State) :
    faultO s = (s.status.getLsbD 1 || s.status.getLsbD 2 || s.status.getLsbD 3 || s.status.getLsbD 4 ||
      s.status.getLsbD 5) := by
  simp [faultO, readStatus, statusImplemented]

@[simp] theorem faultO_consume (l : List HostInput) (s : State) : faultO (consume l s) = faultO s := rfl

@[simp] theorem faultO_hardwareReset (s : State) : faultO (hardwareReset s) = false := by
  simp [faultO_eq_bits]

theorem faultO_eq_true_iff (s : State) :
    faultO s = true ↔ ∃ n, 1 ≤ n ∧ n ≤ 5 ∧ s.status.getLsbD n = true := by
  constructor
  · intro h
    simp only [faultO_eq_bits, Bool.or_eq_true] at h
    rcases h with (((h | h) | h) | h) | h
    exacts [⟨1, by decide, by decide, h⟩, ⟨2, by decide, by decide, h⟩, ⟨3, by decide, by decide, h⟩,
      ⟨4, by decide, by decide, h⟩, ⟨5, by decide, by decide, h⟩]
  · rintro ⟨n, h1, h5, h⟩
    rw [faultO_eq_bits]
    interval_cases n <;> simp [h]

/-- `0x3E` masks the sticky bits, 1 to 5 (R18). -/
theorem getLsbD_stickyMask {n : Nat} (hn : n < 32) : (0x0000003E#32).getLsbD n = decide (1 ≤ n ∧ n ≤ 5) := by
  interval_cases n <;> rfl

theorem faultO_eq_false_iff (s : State) : faultO s = false ↔ NoFaultRecorded s := by
  rw [← Bool.not_eq_true, faultO_eq_true_iff]
  constructor
  · intro h
    refine BitVec.eq_of_getLsbD_eq fun n hn => Eq.trans ?_ BitVec.getLsbD_zero.symm
    rw [BitVec.getLsbD_and, getLsbD_stickyMask hn, Bool.and_eq_false_iff]
    cases hb : s.status.getLsbD n with
    | false => exact .inl rfl
    | true => exact .inr (decide_eq_false fun ⟨h1, h5⟩ => h ⟨n, h1, h5, hb⟩)
  · rintro h ⟨n, h1, h5, hb⟩
    have hz : (s.status &&& 0x0000003E#32).getLsbD n = false := by rw [h]; exact BitVec.getLsbD_zero
    rw [BitVec.getLsbD_and, hb, getLsbD_stickyMask (by omega), decide_eq_true ⟨h1, h5⟩] at hz
    cases hz

/-- A recorded fault outlives every command (R99). -/
theorem exec_keeps_faultO {i : Instr} {s t : State} (h : exec i s = .next t) (hf : faultO s = true) : faultO t = true := by
  obtain ⟨n, h1, h5, hb⟩ := (faultO_eq_true_iff s).mp hf
  exact (faultO_eq_true_iff t).mpr ⟨n, h1, h5, exec_keeps_status_bit h (by omega) hb⟩

/-- Settles O44, by the cases of a step: a command sets bits of `STATUS` and clears none, and an idle cycle or an empty port
writes none, so only the two events that are a hardware reset (R105, R107) can lower `fault_o`. -/
theorem faultOutputStaysHigh : Obligations.FaultOutputStaysHigh := by
  refine ⟨faultO_eq_bits, faultO_eq_false_iff, faultO_hardwareReset, fun s t h hf => ?_⟩
  rcases step_cases h with ⟨-, rfl⟩ | ⟨cw, rest, -, hx⟩ | ⟨cw, rest, hin, -⟩ | ⟨rest, hin, -⟩ | ⟨rest, -, rfl⟩
  · exact .inr (.inr hf)
  · exact .inr (.inr (exec_keeps_faultO hx hf))
  · exact .inr (.inl ⟨cw, rest, hin⟩)
  · exact .inl ⟨rest, hin⟩
  · exact .inr (.inr hf)

end Sys2Proof.Proofs

/-! SUPPORT. The masked index of a table access (spec/20_memory.md R29). -/

namespace Sys2Proof.Proofs

open Sys2Proof.Machine

/-- The mask written out: `MASK = 2^B - 1` as a 32-bit word (R7). -/
theorem lookupIndex_eq_and (p : Params) (x : Word) :
    lookupIndex p x = x &&& BitVec.ofNat 32 (2 ^ p.bitDepth - 1) := rfl

/-- No masked index is out of the table's range (R29). -/
theorem lookupIndex_toNat_lt {p : Params} (hp : p.depthLegal = true) (x : Word) :
    (lookupIndex p x).toNat < 2 ^ p.bitDepth := by
  rw [lookupIndex_toNat hp]
  exact Nat.mod_lt _ (Nat.two_pow_pos _)

/-- Settles O20: masking with `2^B - 1` takes the remainder by the table's length. -/
theorem tableIndexWraps : Obligations.TableIndexWraps := by
  intro p hp x
  rw [← lookupIndex_eq_and]
  exact ⟨rfl, lookupIndex_toNat hp x, lookupIndex_toNat_lt hp x⟩

end Sys2Proof.Proofs

/-! SUPPORT. The fields of a command word: the opcode alone selects the command (spec/30_encoding.md R42, R43, R47). -/

namespace Sys2Proof.Proofs

open Sys2Proof.Machine

/-! ## Matching under a mask -/

/-- Masking acts field by field. -/
theorem packCommand_and (op op' : BitVec 4) (a a' b b' : Word) :
    packCommand op a b &&& packCommand op' a' b' = packCommand (op &&& op') (a &&& a') (b &&& b') := by
  change (op ++ a ++ b &&& (op' ++ a' ++ b') : BitVec (4 + 32 + 32)) = (op &&& op') ++ (a &&& a') ++ (b &&& b')
  rw [BitVec.and_append, BitVec.and_append]

theorem packCommand_zero_inj {op op' : BitVec 4} : packCommand op 0 0 = packCommand op' 0 0 ↔ op = op' :=
  ⟨fun h => by simpa using congrArg opField h, fun h => by rw [h]⟩

/-- The match value of R43, `op << 64`, is the word with that opcode and zero operand fields. -/
theorem setWidth_shiftLeft_eq_packCommand : ∀ k : BitVec 4, (k.setWidth 68) <<< 64 = packCommand k 0 0 := by
  decide

/-- A mask on opcode bits clears the operand fields and keeps the masked bits of the opcode. -/
theorem and_packCommand_zero (cw : CommandWord) (m : BitVec 4) :
    cw &&& packCommand m 0 0 = packCommand (opField cw &&& m) 0 0 := by
  calc cw &&& packCommand m 0 0
      = packCommand (opField cw) (aField cw) (bField cw) &&& packCommand m 0 0 := by rw [packCommand_fields]
    _ = packCommand (opField cw &&& m) 0 0 := by rw [packCommand_and]; simp

/-- The mask of a command row compares the whole opcode and nothing else (R42). -/
theorem matches_command_row_iff (cw : CommandWord) (k : BitVec 4) :
    cw &&& 0xF0000000000000000#68 = (k.setWidth 68) <<< 64 ↔ opField cw = k := by
  have hmask : 0xF0000000000000000#68 = packCommand 0xF#4 0 0 := by decide
  have hones : opField cw &&& 0xF#4 = opField cw := BitVec.and_allOnes
  rw [hmask, setWidth_shiftLeft_eq_packCommand, and_packCommand_zero, packCommand_zero_inj, hones]

/-- The reserved row compares the top two bits, which are both 1 exactly in the opcodes `0xC` to `0xF` (R42, R47). -/
theorem matches_reserved_row_iff (cw : CommandWord) :
    cw &&& 0xC0000000000000000#68 = 0xC0000000000000000#68 ↔ 0xC#4 ≤ opField cw := by
  have hmask : 0xC0000000000000000#68 = packCommand 0xC#4 0 0 := by decide
  have htop : ∀ op : BitVec 4, op &&& 0xC#4 = 0xC#4 ↔ 0xC#4 ≤ op := by decide
  rw [hmask, and_packCommand_zero, packCommand_zero_inj, htop]

/-! ## Which command a word is -/

/-- The command a word decodes to has the word's opcode (R43, R47); the last case of `decode` is the reserved opcodes. -/
theorem opcode_decode (cw : CommandWord) : opcode (decode cw) = opField cw := by
  unfold decode
  split
  case h_13 => rfl
  all_goals exact BitVec.eq_of_toNat_eq (by simp [opcode, *])

/-- A word is rejected as reserved exactly by its opcode (R47). -/
theorem decode_eq_reserved_iff (cw : CommandWord) : decode cw = .reserved (opField cw) ↔ 0xC#4 ≤ opField cw := by
  rw [BitVec.le_def]
  unfold decode
  split
  case h_13 =>
    simp only [imp_false] at *
    simp only [BitVec.toNat_ofNat, true_iff]
    omega
  all_goals simp [*]

/-- An opcode whose format has no operand decodes alike whatever the operand fields hold (R41, R42, R47). -/
theorem decode_packCommand_of_no_operand {op : BitVec 4} (hop : op ∉ [0x1#4, 0x3#4, 0x4#4, 0x8#4]) (a b a' b' : Word) :
    decode (packCommand op a b) = decode (packCommand op a' b') := by
  have hne : op.toNat ≠ 1 ∧ op.toNat ≠ 3 ∧ op.toNat ≠ 4 ∧ op.toNat ≠ 8 := by
    simpa [← BitVec.toNat_inj] using hop
  obtain ⟨h1, h3, h4, h8⟩ := hne
  rw [decode_packCommand, decode_packCommand]
  split
  -- the alternatives of `decode` at the opcodes 1, 3, 4 and 8
  case h_2 | h_4 | h_5 | h_9 => contradiction
  all_goals rfl

/-- The canonical word of a command without operands is its opcode over zero fields (R42). -/
theorem encode_of_no_operand {i : Instr}
    (hi : i ∈ [Instr.nop, .sample, .rstp, .getf, .getr, .getp, .getd, .gets]) : encode i = packCommand (opcode i) 0 0 := by
  cases i
  case init | setf | setr | lookup | reserved => simp at hi
  all_goals rfl

/-! ## Ignored bits -/

/-- A step sees its command word only through `decode`. -/
theorem step_command_congr {cw cw' : CommandWord} (h : decode cw = decode cw') (s : State) (rest : List HostInput) :
    step { s with inputs := .command cw :: rest } = step { s with inputs := .command cw' :: rest } := by
  change exec (decode cw) { s with inputs := rest } = exec (decode cw') { s with inputs := rest }
  rw [h]

/-- Settles O4: a step runs the decoded command, and decoding looks at `op` and at the significant fields only. -/
theorem ignoredBitsChangeNothing : Obligations.IgnoredBitsChangeNothing := by
  refine ⟨fun s rest a b a' b' => ⟨fun op hop => ?_, ?_, ?_, ?_⟩, fun cw => ⟨opcode_decode cw, fun k _ => ?_, ?_⟩,
    fun f => bField_packCommand _ _ _, fun r => aField_packCommand _ _ _, fun idx => aField_packCommand _ _ _, fun i hi => ?_⟩
  · exact step_command_congr (decode_packCommand_of_no_operand hop a b a' b') s rest
  · exact step_command_congr (by simp [decode_packCommand]) s rest
  · exact step_command_congr (by simp [decode_packCommand]) s rest
  · exact step_command_congr (by simp [decode_packCommand]) s rest
  · rw [opcode_decode, matches_command_row_iff]
  · rw [matches_reserved_row_iff, decode_eq_reserved_iff]
  · rw [encode_of_no_operand hi]
    exact ⟨aField_packCommand _ _ _, bField_packCommand _ _ _⟩

end Sys2Proof.Proofs

/-! SUPPORT. The one response of a command and its fields (spec/30_encoding.md R44). -/

namespace Sys2Proof.Proofs

open Sys2Proof.Machine Sys2Proof.Safety

/-- A command that ends answers one word: an accepted one with data, a rejected one with its cause (R44, R96). -/
theorem exec_answers {i : Instr} {s t : State} (h : exec i s = .next t) :
    (∃ d, Answered s t (okResponse d)) ∨ ∃ c, Answered s t (faultResponse c) := by
  rcases exec_cases h with ⟨c, rfl⟩ | ⟨d, rfl⟩ | ⟨-, -, rfl⟩ | ⟨-, -, rfl⟩ | ⟨_, _, -, -, -, rfl⟩ |
    ⟨_, _, -, -, -, rfl⟩ | ⟨_, _, _, -, -, rfl⟩
  case inl => exact .inr ⟨c, raise_responses c s⟩
  all_goals exact .inl ⟨_, respond_responses _ _⟩

/-- Settles O39: every command ends in a next state, and both forms of its one response have R44's layout. -/
theorem oneResponsePerCommand : Obligations.OneResponsePerCommand := by
  refine ⟨fun i s => ?_, fun d => ⟨responseFault_ok d, responseCause_ok d, responseData_ok d⟩,
    fun c => ⟨responseFault_fault c, responseCause_fault c, responseData_fault c⟩⟩
  obtain ⟨t, ht⟩ := exec_is_next i s
  rcases exec_answers ht with ⟨d, hd⟩ | ⟨c, hc⟩
  · exact ⟨t, okResponse d, ht, hd, .inl ⟨d, rfl⟩⟩
  · exact ⟨t, faultResponse c, ht, hc, .inr ⟨c, rfl⟩⟩

end Sys2Proof.Proofs

/-! SUPPORT. The phase's index into the table (spec/40_sine_lut.md R58). -/

namespace Sys2Proof.Proofs

open Sys2Proof.Machine

theorem bitDepth_le_of_depthLegal {p : Params} (hp : p.depthLegal = true) : p.bitDepth ≤ 31 := by
  simp only [Params.depthLegal, Bool.and_eq_true, decide_eq_true_eq] at hp
  exact hp.2

/-- `INDEX` masks the shifted phase as `LOOKUP` masks its operand (R58, R59). -/
theorem phaseIndex_eq_lookupIndex (p : Params) (ph : Word) :
    phaseIndex p ph = lookupIndex p (ph >>> (32 - p.bitDepth)) := rfl

/-- The shift leaves `B` bits, so `MASK` clears none of them (R58). -/
theorem shifted_toNat_lt {p : Params} (hp : p.depthLegal = true) (ph : Word) :
    (ph >>> (32 - p.bitDepth)).toNat < 2 ^ p.bitDepth := by
  have hB : p.bitDepth ≤ 31 := bitDepth_le_of_depthLegal hp
  rw [BitVec.toNat_ushiftRight, Nat.shiftRight_eq_div_pow]
  apply Nat.div_lt_of_lt_mul
  rw [← pow_add, Nat.sub_add_cancel (by omega)]
  exact ph.isLt

theorem phaseIndex_eq_shift {p : Params} (hp : p.depthLegal = true) (ph : Word) :
    phaseIndex p ph = ph >>> (32 - p.bitDepth) := by
  apply BitVec.eq_of_toNat_eq
  rw [phaseIndex_eq_lookupIndex, lookupIndex_toNat hp, Nat.mod_eq_of_lt (shifted_toNat_lt hp ph)]

/-- A right shift sees only the bits from the shift amount up. -/
theorem ushiftRight_eq_of_high_bits_eq {k : Nat} {x y : Word} (h : ∀ n, k ≤ n → y.getLsbD n = x.getLsbD n) :
    y >>> k = x >>> k := by
  refine BitVec.eq_of_getLsbD_eq fun i _ => ?_
  rw [BitVec.getLsbD_ushiftRight, BitVec.getLsbD_ushiftRight, h (k + i) (Nat.le_add_right k i)]

/-- Settles O19: the shift alone is the index, and the other forms of R58 are forms of the shift. -/
theorem phaseIndexIsTopBits : Obligations.PhaseIndexIsTopBits := by
  intro p hp ph
  refine ⟨rfl, phaseIndex_eq_shift hp ph, ?_, ?_, fun ph' h => ?_⟩
  · rw [phaseIndex_eq_shift hp, BitVec.toNat_ushiftRight, Nat.shiftRight_eq_div_pow]
  · rw [phaseIndex_eq_lookupIndex]
    exact lookupIndex_toNat_lt hp _
  · rw [phaseIndex_eq_shift hp, phaseIndex_eq_shift hp, ushiftRight_eq_of_high_bits_eq h]

end Sys2Proof.Proofs

/-! SUPPORT. The command `LOOKUP` (spec/40_sine_lut.md R59). -/

namespace Sys2Proof.Proofs

open Sys2Proof.Machine

/-- `LOOKUP` answers the entry at the operand's remainder by the table's length, in every state (R59). -/
theorem exec_lookup (idx : Word) (s : State) : exec (.lookup idx) s =
    .next (respond (Config.params.rom (idx.toNat % 2 ^ Config.params.bitDepth)) s) := by
  change Host.Outcome.next (respond (Config.params.rom (lookupIndex Config.params idx).toNat) s) = _
  rw [lookupIndex_toNat Config.params_valid.depth_legal]

/-- The table's length divides `2^32`, so cutting an integer to 32 bits keeps its floored remainder (R59). -/
theorem toNat_ofInt_mod_two_pow {B : Nat} (hB : B ≤ 32) (i : ℤ) :
    (BitVec.ofInt 32 i).toNat % 2 ^ B = (i % 2 ^ B).toNat := by
  have hdvd : (2 ^ B : ℤ) ∣ 2 ^ 32 := pow_dvd_pow 2 hB
  have hcut : ((BitVec.ofInt 32 i).toNat : ℤ) = i % 2 ^ 32 := by
    rw [BitVec.toNat_ofInt]
    exact Int.toNat_of_nonneg (Int.emod_nonneg i (by decide))
  have hmod : (((BitVec.ofInt 32 i).toNat % 2 ^ B : ℕ) : ℤ) = i % 2 ^ B := by
    push_cast
    rw [hcut, Int.emod_emod_of_dvd i hdvd]
  rw [← hmod, Int.toNat_natCast]

/-- Settles O21: the masked operand is its remainder by the table's length, also for an integer's 32-bit pattern. -/
theorem lookupAnswersTableEntry : Obligations.LookupAnswersTableEntry := by
  refine ⟨fun a idx => decode_packCommand 0x8#4 a idx, exec_lookup, fun i s _ _ => ?_⟩
  have hB : Config.params.bitDepth ≤ 32 := bitDepth_le.trans (by decide)
  rw [← toNat_ofInt_mod_two_pow hB]
  exact exec_lookup _ s

end Sys2Proof.Proofs

/-! SUPPORT. The fields of a binary32 word and its value (spec/41_phase_increment.md R62, R63). -/

namespace Sys2Proof.Proofs

open Sys2Proof.Machine

/-! ## The fields in the word's number -/

theorem exponentField_eq_div_mod (w : Word) : exponentField w = w.toNat / 2 ^ 23 % 2 ^ 8 := by
  rw [exponentField, BitVec.extractLsb'_toNat, Nat.shiftRight_eq_div_pow]

theorem fractionField_eq_mod (w : Word) : fractionField w = w.toNat % 2 ^ 23 := by
  rw [fractionField, BitVec.extractLsb'_toNat, Nat.shiftRight_zero]

theorem signBit_eq_decide_le (w : Word) : signBit w = decide (2 ^ 31 ≤ w.toNat) :=
  BitVec.msb_eq_decide w

/-- The 31 bits below the sign are the exponent over the fraction. -/
theorem toNat_low31 (w : Word) : (w.extractLsb' 0 31).toNat = exponentField w * 2 ^ 23 + fractionField w := by
  rw [BitVec.extractLsb'_toNat, Nat.shiftRight_zero, exponentField_eq_div_mod, fractionField_eq_mod]
  omega

/-! ## The classes of R63 -/

theorem finite_iff (w : Word) : finite w = true ↔ exponentField w ≠ 255 := bne_iff_ne

theorem positive_iff (w : Word) :
    positive w = true ↔ finite w = true ∧ signBit w = false ∧ w.extractLsb' 0 31 ≠ 0#31 := by
  simp [positive, and_assoc]

/-- The positive words lie between `+0` and `+infinity`. -/
theorem positive_iff_toNat (w : Word) : positive w = true ↔ 0 < w.toNat ∧ w.toNat < 0x7F800000 := by
  have hlt : w.toNat < 2 ^ 32 := w.isLt
  rw [positive_iff, finite_iff, signBit_eq_decide_le, decide_eq_false_iff_not, ← BitVec.toNat_ne_iff_ne, toNat_low31,
    exponentField_eq_div_mod, fractionField_eq_mod, BitVec.toNat_ofNat]
  omega

/-! ## Significand, exponent and value -/

theorem significand_of_exponentField_eq_zero {w : Word} (he : exponentField w = 0) : significand w = fractionField w :=
  if_pos he

theorem significand_of_exponentField_ne_zero {w : Word} (he : exponentField w ≠ 0) :
    significand w = 2 ^ 23 + fractionField w := if_neg he

theorem exponent_of_exponentField_eq_zero {w : Word} (he : exponentField w = 0) : exponent w = -149 := if_pos he

theorem exponent_of_exponentField_ne_zero {w : Word} (he : exponentField w ≠ 0) :
    exponent w = (exponentField w : ℤ) - 150 := if_neg he

/-- The significand is 0 exactly where all bits below the sign are. -/
theorem significand_eq_zero_iff (w : Word) : significand w = 0 ↔ w.extractLsb' 0 31 = 0#31 := by
  rw [← BitVec.toNat_inj, toNat_low31, BitVec.toNat_ofNat]
  by_cases he : exponentField w = 0
  · rw [significand_of_exponentField_eq_zero he]
    omega
  · rw [significand_of_exponentField_ne_zero he]
    omega

theorem significand_ne_zero_of_positive {r : Word} (hr : positive r = true) : significand r ≠ 0 := by
  obtain ⟨-, -, hlow⟩ := (positive_iff r).mp hr
  exact mt (significand_eq_zero_iff r).mp hlow

theorem neg_149_le_exponent (w : Word) : -149 ≤ exponent w := by
  by_cases he : exponentField w = 0
  · rw [exponent_of_exponentField_eq_zero he]
  · rw [exponent_of_exponentField_ne_zero he]
    omega

theorem exponent_le_of_finite {w : Word} (h : finite w = true) : exponent w ≤ 104 := by
  have hne : exponentField w ≠ 255 := (finite_iff w).mp h
  have hlt : exponentField w < 256 := exponentField_lt w
  by_cases he : exponentField w = 0
  · rw [exponent_of_exponentField_eq_zero he]
    decide
  · rw [exponent_of_exponentField_ne_zero he]
    omega

theorem val_pos_iff (w : Word) : 0 < val w ↔ signBit w = false ∧ significand w ≠ 0 := by
  have hpow : (0 : ℚ) < 2 ^ exponent w := zpow_pos two_pos _
  rw [val, mul_pos_iff_of_pos_right hpow]
  cases signBit w
  · simp [Nat.pos_iff_ne_zero]
  · simp

theorem val?_of_finite {w : Word} (h : finite w = true) : val? w = some (val w) := if_pos h

theorem val?_of_exponentField_eq_255 {w : Word} (he : exponentField w = 255) : val? w = none :=
  if_neg (by rw [finite_iff]; exact not_not.mpr he)

/-- The value of a word of exponent field 0, from its fraction. -/
theorem val?_of_exponentField_eq_zero {w : Word} (he : exponentField w = 0) :
    val? w = some ((if signBit w then -1 else 1) * fractionField w * 2 ^ (-149 : ℤ) : ℚ) := by
  rw [val?_of_finite ((finite_iff w).mpr (by omega)), val, significand_of_exponentField_eq_zero he,
    exponent_of_exponentField_eq_zero he]

/-- The value of a normal word, with the hidden bit. -/
theorem val?_of_normal {w : Word} (h1 : 1 ≤ exponentField w) (h2 : exponentField w ≤ 254) :
    val? w = some
      ((if signBit w then -1 else 1) * (2 ^ 23 + fractionField w) * 2 ^ ((exponentField w : ℤ) - 150) : ℚ) := by
  have he : exponentField w ≠ 0 := by omega
  rw [val?_of_finite ((finite_iff w).mpr (by omega)), val, significand_of_exponentField_ne_zero he,
    exponent_of_exponentField_ne_zero he]
  push_cast
  rfl

/-! ## The rows of R62's table -/

theorem floatClass_zero {w : Word} (he : exponentField w = 0) (hm : fractionField w = 0) : floatClass w = .zero :=
  (if_pos he).trans (if_pos hm)

theorem val?_zero {w : Word} (he : exponentField w = 0) (hm : fractionField w = 0) : val? w = some 0 := by
  rw [val?_of_exponentField_eq_zero he, hm, Nat.cast_zero, mul_zero, zero_mul]

theorem floatClass_subnormal {w : Word} (he : exponentField w = 0) (hm : fractionField w ≠ 0) :
    floatClass w = .subnormal := (if_pos he).trans (if_neg hm)

theorem floatClass_normal {w : Word} (h1 : 1 ≤ exponentField w) (h2 : exponentField w ≤ 254) :
    floatClass w = .normal := (if_neg (by omega)).trans (if_neg (by omega))

theorem floatClass_infinity {w : Word} (he : exponentField w = 255) (hm : fractionField w = 0) :
    floatClass w = .infinity := (if_neg (by omega)).trans ((if_pos he).trans (if_pos hm))

theorem floatClass_nan {w : Word} (he : exponentField w = 255) (hm : fractionField w ≠ 0) : floatClass w = .nan :=
  (if_neg (by omega)).trans ((if_pos he).trans (if_neg hm))

/-- Settles O12, row by row of R62's table. -/
theorem binaryWordsReadByClass : Obligations.BinaryWordsReadByClass := fun w =>
  ⟨fun he hm => ⟨floatClass_zero he hm, val?_zero he hm⟩,
    fun he hm => ⟨floatClass_subnormal he hm, val?_of_exponentField_eq_zero he⟩,
    fun h1 h2 => ⟨floatClass_normal h1 h2, val?_of_normal h1 h2⟩,
    fun he hm => ⟨floatClass_infinity he hm, val?_of_exponentField_eq_255 he⟩,
    fun he hm => ⟨floatClass_nan he hm, val?_of_exponentField_eq_255 he⟩,
    fun h => ⟨val?_of_finite h, significand_lt w, neg_149_le_exponent w, exponent_le_of_finite h⟩⟩

/-- Settles O13: the value's sign is the word's, and the order of the words is that of their numbers. -/
theorem positiveWordsAreAboveZero : Obligations.PositiveWordsAreAboveZero := by
  intro w
  refine ⟨?_, positive_iff w, ?_, ?_⟩
  · rw [finite_iff, ne_eq, ne_eq, ← BitVec.toNat_inj]
    rfl
  · rw [positive_iff, val_pos_iff, ne_eq, ne_eq, significand_eq_zero_iff]
  · have hlt : w.toNat < 2 ^ 32 := w.isLt
    have hsign : w.getLsbD 31 = true ↔ 2 ^ 31 ≤ w.toNat := by
      rw [← signBit, signBit_eq_decide_le, decide_eq_true_eq]
    rw [← Bool.not_eq_true, positive_iff_toNat, hsign, ← BitVec.toNat_inj, ← BitVec.toNat_inj, BitVec.le_def,
      BitVec.le_def]
    simp only [BitVec.toNat_ofNat]
    omega

end Sys2Proof.Proofs

/-! SUPPORT. The integer form of the phase increment is the exact floor (spec/41_phase_increment.md R65, R66). -/

namespace Sys2Proof.Proofs

open Sys2Proof.Machine Sys2Proof.Safety

theorem two_zpow_eq_div (k : ℤ) : (2 : ℚ) ^ k = 2 ^ k.toNat / 2 ^ (-k).toNat := by
  calc (2 : ℚ) ^ k = 2 ^ ((k.toNat : ℤ) - ((-k).toNat : ℤ)) := by rw [Int.toNat_sub_toNat_neg]
    _ = 2 ^ k.toNat / 2 ^ (-k).toNat := by rw [zpow_sub₀ two_ne_zero, zpow_natCast, zpow_natCast]

/-- The numerator of R66 with the frequency's sign. -/
def signedQuotientNum (f r : Word) : ℤ := if signBit f then -quotientNum f r else quotientNum f r

theorem quotientDen_pos {r : Word} (hr : positive r = true) (f : Word) : 0 < quotientDen f r :=
  Nat.mul_pos (Nat.pos_of_ne_zero (significand_ne_zero_of_positive hr)) (Nat.two_pow_pos _)

/-- The truncated quotient with R66's correction for a negative frequency is the floored division. -/
theorem unboundedIncrement_eq_ediv {r : Word} (hr : positive r = true) (f : Word) :
    unboundedIncrement f r = signedQuotientNum f r / quotientDen f r := by
  have hD : (quotientDen f r : ℤ).sign = 1 := Int.sign_eq_one_of_pos (by exact_mod_cast quotientDen_pos hr f)
  unfold unboundedIncrement signedQuotientNum
  cases signBit f
  · simp
  · by_cases hrem : quotientNum f r % quotientDen f r = 0
    · simp [hrem, Int.neg_ediv, Int.natCast_dvd_natCast, Nat.dvd_iff_mod_eq_zero]
    · simp [hrem, hD, Int.neg_ediv, Int.natCast_dvd_natCast, Nat.dvd_iff_mod_eq_zero]

/-- The exact quotient of R65 is the quotient of R66's integers. -/
theorem val_quotient_eq {r : Word} (hr : positive r = true) (f : Word) :
    val f * 2 ^ 32 / val r = (signedQuotientNum f r : ℚ) / quotientDen f r := by
  obtain ⟨-, hsign, -⟩ := (positive_iff r).mp hr
  have hM : (significand r : ℚ) ≠ 0 := Nat.cast_ne_zero.mpr (significand_ne_zero_of_positive hr)
  have hk : (2 : ℚ) ^ exponent f * 2 ^ 32 / 2 ^ exponent r =
      2 ^ (quotientExponent f r).toNat / 2 ^ (-quotientExponent f r).toNat := by
    rw [← two_zpow_eq_div, quotientExponent, zpow_sub₀ two_ne_zero, zpow_add₀ two_ne_zero]
    norm_cast
  calc val f * 2 ^ 32 / val r
      = (if signBit f then -1 else 1) * (significand f / significand r) *
          ((2 : ℚ) ^ exponent f * 2 ^ 32 / 2 ^ exponent r) := by
        rw [val, val, hsign]
        simp only [Bool.false_eq_true, if_false]
        field_simp
    _ = (signedQuotientNum f r : ℚ) / quotientDen f r := by
        rw [hk, signedQuotientNum, quotientNum, quotientDen]
        push_cast
        split <;> field_simp

/-- The integer computation meets R65. -/
theorem unboundedIncrement_eq_exactQ {r : Word} (hr : positive r = true) (f : Word) :
    unboundedIncrement f r = exactQ f r := by
  rw [exactQ, val_quotient_eq hr, Rat.floor_intCast_div_natCast, unboundedIncrement_eq_ediv hr]

/-- A 24-bit significand shifted by at most `104 + 32 + 149 = 285` places. -/
theorem quotientNum_lt {f : Word} (hf : finite f = true) (r : Word) : quotientNum f r < 2 ^ 310 := by
  have hk : (quotientExponent f r).toNat ≤ 285 := by
    have hE : exponent f ≤ 104 := exponent_le_of_finite hf
    have hR : -149 ≤ exponent r := neg_149_le_exponent r
    unfold quotientExponent
    omega
  calc quotientNum f r < 2 ^ 24 * 2 ^ (quotientExponent f r).toNat :=
        Nat.mul_lt_mul_of_pos_right (significand_lt f) (Nat.two_pow_pos _)
    _ = 2 ^ (24 + (quotientExponent f r).toNat) := (pow_add _ _ _).symm
    _ < 2 ^ 310 := pow_lt_pow_right₀ one_lt_two (by omega)

theorem natAbs_signedQuotientNum (f r : Word) : (signedQuotientNum f r).natAbs = quotientNum f r := by
  unfold signedQuotientNum
  split <;> simp

/-- Settles O14: the floor by R66's integers, and dividing does not make their numerator larger. -/
theorem incrementIsExactFloor : Obligations.IncrementIsExactFloor := by
  intro f r hf hr
  refine ⟨unboundedIncrement_eq_exactQ hr f, ?_⟩
  have hle : (unboundedIncrement f r).natAbs ≤ quotientNum f r := by
    rw [unboundedIncrement_eq_ediv hr, ← natAbs_signedQuotientNum]
    exact Int.natAbs_ediv_le_natAbs _ _
  have hlt : (unboundedIncrement f r).natAbs < 2 ^ 310 := hle.trans_lt (quotientNum_lt hf r)
  rw [Int.abs_eq_natAbs]
  exact_mod_cast hlt

/-- Settles O15, by the four answers of `DPHI`, with R65's floor for the integers it computes. -/
theorem incrementChecksInOrder : Obligations.IncrementChecksInOrder := by
  intro f r
  rcases dphi_cases f r with ⟨hr, e⟩ | ⟨hr, hf, e⟩ | ⟨hr, hf, hq, e⟩ | ⟨hr, hf, h0, h1, e⟩
  · rw [e, if_pos hr]
  · rw [e, if_neg (by simp [hr]), if_pos hf]
  · rw [unboundedIncrement_eq_exactQ hr] at hq
    rw [e, if_neg (by simp [hr]), if_neg (by simp [hf]), if_pos hq]
  · rw [unboundedIncrement_eq_exactQ hr] at e h0 h1
    rw [e, if_neg (by simp [hr]), if_neg (by simp [hf]), if_neg (by omega), ← BitVec.ofInt_natCast,
      Int.toNat_of_nonneg h0]

end Sys2Proof.Proofs

/-! SUPPORT. A rejection with its sticky bit and response as numbers, and `DPHI` by R65's floor and by the values of its operands
(spec/41_phase_increment.md R65 to R70, spec/60_exceptions.md R96). -/

namespace Sys2Proof.Proofs

open Sys2Proof.Machine Sys2Proof.Safety

/-! ## Rejections (R18, R44, R96) -/

theorem raise_notConfigured (s : State) : raise .notConfigured s = rejectedWith 0x4#32 0xA00000000#36 s :=
  raise_eq .notConfigured s

theorem raise_badSampleRate (s : State) : raise .badSampleRate s = rejectedWith 0x8#32 0xB00000000#36 s :=
  raise_eq .badSampleRate s

theorem raise_badFrequency (s : State) : raise .badFrequency s = rejectedWith 0x10#32 0xC00000000#36 s :=
  raise_eq .badFrequency s

theorem raise_incrementRange (s : State) : raise .incrementRange s = rejectedWith 0x20#32 0xD00000000#36 s :=
  raise_eq .incrementRange s

/-! ## The four answers of `DPHI` (R67) -/

theorem dphi_of_not_positive {r : Word} (hr : positive r = false) (f : Word) : dphi f r = .error .badSampleRate := by
  rw [incrementChecksInOrder, if_pos hr]

theorem dphi_of_not_finite {f r : Word} (hr : positive r = true) (hf : finite f = false) :
    dphi f r = .error .badFrequency := by
  rw [incrementChecksInOrder, if_neg (by simp [hr]), if_pos hf]

theorem dphi_of_exactQ_out_of_range {f r : Word} (hr : positive r = true) (hf : finite f = true)
    (hq : exactQ f r < 0 ∨ 2 ^ 32 ≤ exactQ f r) : dphi f r = .error .incrementRange := by
  rw [incrementChecksInOrder, if_neg (by simp [hr]), if_neg (by simp [hf]), if_pos hq]

theorem dphi_of_exactQ_in_range {f r : Word} (hr : positive r = true) (hf : finite f = true)
    (h0 : 0 ≤ exactQ f r) (h1 : exactQ f r < 2 ^ 32) : dphi f r = .ok (BitVec.ofInt 32 (exactQ f r)) := by
  rw [incrementChecksInOrder, if_neg (by simp [hr]), if_neg (by simp [hf]), if_neg (by omega)]

/-- `DPHI` never gives the cause of the configured check, which is made before it. -/
theorem dphi_ne_notConfigured (f r : Word) : dphi f r ≠ .error .notConfigured := by
  rcases dphi_cases f r with ⟨-, e⟩ | ⟨-, -, e⟩ | ⟨-, -, -, e⟩ | ⟨-, -, -, -, e⟩ <;> simp [e]

/-! ## The range check in the operands' values (the consequences of R70) -/

theorem val_pos_of_positive {r : Word} (hr : positive r = true) : 0 < val r :=
  (val_pos_iff r).mpr ⟨((positive_iff r).mp hr).2.1, significand_ne_zero_of_positive hr⟩

theorem exactQ_neg_iff {r : Word} (hr : positive r = true) (f : Word) : exactQ f r < 0 ↔ val f < 0 := by
  rw [exactQ, Int.floor_lt, Int.cast_zero, div_lt_iff₀ (val_pos_of_positive hr), zero_mul]
  constructor <;> intro h <;> linarith

theorem two_pow_le_exactQ_iff {r : Word} (hr : positive r = true) (f : Word) : 2 ^ 32 ≤ exactQ f r ↔ val r ≤ val f := by
  have hcast : ((2 ^ 32 : ℤ) : ℚ) = 2 ^ 32 := by norm_num
  rw [exactQ, Int.le_floor, hcast, le_div_iff₀ (val_pos_of_positive hr), mul_comm, mul_le_mul_iff_left₀ (by norm_num)]

theorem dphi_of_val_out_of_range {f r : Word} (hr : positive r = true) (hf : finite f = true)
    (hv : val f < 0 ∨ val r ≤ val f) : dphi f r = .error .incrementRange :=
  dphi_of_exactQ_out_of_range hr hf (hv.imp (exactQ_neg_iff hr f).mpr (two_pow_le_exactQ_iff hr f).mpr)

theorem dphi_of_val_in_range {f r : Word} (hr : positive r = true) (hf : finite f = true)
    (h0 : 0 ≤ val f) (h1 : val f < val r) : dphi f r = .ok (BitVec.ofInt 32 (exactQ f r)) := by
  have hq0 : ¬ exactQ f r < 0 := mt (exactQ_neg_iff hr f).mp (not_lt.mpr h0)
  have hq1 : ¬ 2 ^ 32 ≤ exactQ f r := mt (two_pow_le_exactQ_iff hr f).mp (not_le.mpr h1)
  exact dphi_of_exactQ_in_range hr hf (not_lt.mp hq0) (not_le.mp hq1)

end Sys2Proof.Proofs

/-! SUPPORT. The oscillator commands (spec/42_nco_engine.md R73 to R83). -/

namespace Sys2Proof.Proofs

open Sys2Proof.Machine Sys2Proof.Safety

/-! ## The configured check (R73) -/

/-- The check comes first: no operand is looked at. -/
theorem exec_of_unconfigured {i : Instr} {s : State} (hi : needsConfigured i = true) (hc : configured s = false) :
    exec i s = .next (rejectedWith 0x4#32 0xA00000000#36 s) := by
  rw [← raise_notConfigured]
  cases i
  case nop | init | lookup | gets | reserved => cases hi
  all_goals exact congrArg Host.Outcome.next (whenConfigured_of_unconfigured hc _)

/-- The other commands answer data, or are rejected for another reason. -/
theorem exec_answers_of_not_needsConfigured {i : Instr} {s t : State} (hi : needsConfigured i = false)
    (h : exec i s = .next t) :
    (∃ d, Answered s t (okResponse d)) ∨ ∃ c, c ≠ .notConfigured ∧ Answered s t (faultResponse c) := by
  cases i
  case sample | setf | setr | rstp | getf | getr | getp | getd => cases hi
  case nop | lookup | gets => cases h; exact .inl ⟨_, respond_responses _ _⟩
  case reserved => cases h; exact .inr ⟨.illegalCommand, by decide, raise_responses _ _⟩
  case init f r =>
    simp only [exec, execInit] at h
    cases h
    cases hd : dphi f r with
    | ok d => exact .inl ⟨0, rfl⟩
    | error c => exact .inr ⟨c, fun hc => dphi_ne_notConfigured f r (hc ▸ hd), rfl⟩

/-- A transcript names the one response added to it. -/
theorem answered_unique {s t : State} {r r' : Response} (h : Answered s t r) (h' : Answered s t r') : r = r' :=
  List.singleton_inj.mp (List.append_cancel_left (h.symm.trans h'))

theorem causeCode_eq_two_iff (c : Cause) : causeCode c = 2#3 ↔ c = .notConfigured := by
  cases c <;> decide

/-- The eight commands by opcode; the terms that no word decodes to are excluded, since their opcode may be any. -/
theorem needsConfigured_iff_opcode {i : Instr} (hi : i.wellFormed = true) :
    needsConfigured i = true ↔ opcode i ∈ [0x2#4, 0x3#4, 0x4#4, 0x5#4, 0x6#4, 0x7#4, 0x9#4, 0xA#4] := by
  cases i
  case reserved op =>
    have hout : ∀ op : BitVec 4, 0xC#4 ≤ op → op ∉ [0x2#4, 0x3#4, 0x4#4, 0x5#4, 0x6#4, 0x7#4, 0x9#4, 0xA#4] := by decide
    exact iff_of_false Bool.false_ne_true (hout op (of_decide_eq_true hi))
  all_goals simp [needsConfigured, opcode]

/-- Settles O41, by the command: eight open with the check, and what else is rejected is rejected for another cause. -/
theorem configuredCheckOpensEight : Obligations.ConfiguredCheckOpensEight := by
  refine ⟨fun i s hi hc => ?_, fun i => needsConfigured_iff_opcode, fun i s t r hi h ha => ?_⟩
  · exact exec_of_unconfigured hi (configured_eq_bit s ▸ hc)
  · rcases exec_answers_of_not_needsConfigured hi h with ⟨d, hd⟩ | ⟨c, hc, hf⟩
    · rw [answered_unique ha hd, responseCause_ok]
      decide
    · rw [answered_unique ha hf, responseCause_fault]
      exact mt (causeCode_eq_two_iff c).mp hc

/-! ## What each command does once its checks have passed -/

section Configured

variable {s : State} (hc : configured s = true)
include hc

theorem exec_sample_of_configured : exec .sample s =
    .next (respond (memRead Config.params (phaseIndex Config.params s.phase))
      { s with phase := advance s.phase s.deltaPhase }) :=
  congrArg Host.Outcome.next (whenConfigured_of_configured hc _)

theorem exec_rstp_of_configured : exec .rstp s = .next (respond 0 { s with phase := 0 }) :=
  congrArg Host.Outcome.next (whenConfigured_of_configured hc _)

theorem exec_getf_of_configured : exec .getf s = .next (respond s.frequency s) :=
  congrArg Host.Outcome.next (whenConfigured_of_configured hc _)

theorem exec_getr_of_configured : exec .getr s = .next (respond s.sampleRate s) :=
  congrArg Host.Outcome.next (whenConfigured_of_configured hc _)

theorem exec_setf_of_error {f : Word} {c : Cause} (hd : dphi f s.sampleRate = .error c) :
    exec (.setf f) s = .next (raise c s) := by
  rw [exec, execSetf, whenConfigured_of_configured hc, hd, withIncrement_error]

theorem exec_setf_of_ok {f d : Word} (hd : dphi f s.sampleRate = .ok d) :
    exec (.setf f) s = .next (respond 0 { s with frequency := f, deltaPhase := d }) := by
  rw [exec, execSetf, whenConfigured_of_configured hc, hd, withIncrement_ok]

theorem exec_setr_of_error {r : Word} {c : Cause} (hd : dphi s.frequency r = .error c) :
    exec (.setr r) s = .next (raise c s) := by
  rw [exec, execSetr, whenConfigured_of_configured hc, hd, withIncrement_error]

theorem exec_setr_of_ok {r d : Word} (hd : dphi s.frequency r = .ok d) :
    exec (.setr r) s = .next (respond 0 { s with sampleRate := r, deltaPhase := d }) := by
  rw [exec, execSetr, whenConfigured_of_configured hc, hd, withIncrement_ok]

end Configured

theorem exec_init_of_error {f r : Word} {c : Cause} (hd : dphi f r = .error c) (s : State) :
    exec (.init f r) s = .next (raise c s) := by
  rw [exec, execInit, hd, withIncrement_error]

theorem exec_init_of_ok {f r d : Word} (hd : dphi f r = .ok d) (s : State) :
    exec (.init f r) s =
      .next (respond 0 (setConfigured { s with frequency := f, sampleRate := r, deltaPhase := d, phase := 0 })) := by
  rw [exec, execInit, hd, withIncrement_ok]

/-! ## The commands that compute an increment -/

/-- Settles O26: each answer of `DPHI` is one of the four cases of R74. -/
theorem initConstructsOrRejects : Obligations.InitConstructsOrRejects := by
  intro f r
  refine ⟨decode_packCommand 0x1#4 f r, fun s => ⟨fun hr => ?_, fun hr hf => ?_, fun hr hf hq => ?_, fun hr hf h0 h1 => ?_⟩⟩
  · rw [exec_init_of_error (dphi_of_not_positive hr f), raise_badSampleRate]
  · rw [exec_init_of_error (dphi_of_not_finite hr hf), raise_badFrequency]
  · rw [exec_init_of_error (dphi_of_exactQ_out_of_range hr hf hq), raise_incrementRange]
  · rw [exec_init_of_ok (dphi_of_exactQ_in_range hr hf h0 h1), setConfigured_eq]
    rfl

/-- Settles O29: the configured check, then `DPHI` at the held rate. -/
theorem setfRecomputesOrRejects : Obligations.SetfRecomputesOrRejects := by
  refine ⟨fun f b => decode_packCommand 0x3#4 f b, fun f s => ?_⟩
  rw [← configured_eq_bit]
  refine ⟨exec_of_unconfigured rfl, fun hc hr hf => ?_, fun hc hr hf hv => ?_, fun hc hr hf h0 h1 => ?_⟩
  · rw [exec_setf_of_error hc (dphi_of_not_finite hr hf), raise_badFrequency]
  · rw [exec_setf_of_error hc (dphi_of_val_out_of_range hr hf hv), raise_incrementRange]
  · exact exec_setf_of_ok hc (dphi_of_val_in_range hr hf h0 h1)

/-- Settles O30: the configured check, then `DPHI` at the held frequency. -/
theorem setrRecomputesOrRejects : Obligations.SetrRecomputesOrRejects := by
  refine ⟨fun a r => decode_packCommand 0x4#4 a r, fun r s => ?_⟩
  rw [← configured_eq_bit]
  refine ⟨exec_of_unconfigured rfl, fun hc hr => ?_, fun hc hf hr _ hv => ?_, fun hc hf hr h0 h1 => ?_⟩
  · rw [exec_setr_of_error hc (dphi_of_not_positive hr s.frequency), raise_badSampleRate]
  · rw [exec_setr_of_error hc (dphi_of_val_out_of_range hr hf (.inr hv)), raise_incrementRange]
  · exact exec_setr_of_ok hc (dphi_of_val_in_range hr hf h0 h1)

/-! ## The phase -/

/-- A command leaves the phase alone, clears it, or is a `SAMPLE` and adds the increment (R76). -/
theorem exec_phase_cases {i : Instr} {s t : State} (h : exec i s = .next t) :
    t.phase = s.phase ∨ t.phase = 0 ∨ (i = .sample ∧ t.phase = advance s.phase s.deltaPhase) := by
  rcases exec_cases h with ⟨_, rfl⟩ | ⟨_, rfl⟩ | ⟨hi, -, rfl⟩ | ⟨-, -, rfl⟩ | ⟨_, _, -, -, -, rfl⟩ |
    ⟨_, _, -, -, -, rfl⟩ | ⟨_, _, _, -, -, rfl⟩
  case inr.inr.inl => exact .inr (.inr ⟨hi, rfl⟩)
  case inr.inr.inr.inl | inr.inr.inr.inr.inr.inr => exact .inr (.inl rfl)
  all_goals exact .inl rfl

/-- Settles O28: the adder is addition of 32-bit words. -/
theorem adderWrapsModulo : Obligations.AdderWrapsModulo :=
  ⟨fun p d => ⟨BitVec.toNat_add p d, BitVec.add_zero p⟩, by decide, by decide, by decide, fun _ _ _ => exec_phase_cases⟩

/-- Settles O27: the index is taken from the phase that is then advanced. -/
theorem sampleAnswersThenAdvances : Obligations.SampleAnswersThenAdvances := by
  refine ⟨fun a b => decode_packCommand 0x2#4 a b, fun s => ?_⟩
  rw [← configured_eq_bit]
  exact ⟨exec_of_unconfigured rfl, exec_sample_of_configured⟩

/-- Settles O31: behind the configured check the phase is the one register written. -/
theorem rstpClearsPhase : Obligations.RstpClearsPhase := by
  refine ⟨fun a b => decode_packCommand 0x5#4 a b, fun s => ?_⟩
  rw [← configured_eq_bit]
  exact ⟨exec_of_unconfigured rfl, exec_rstp_of_configured⟩

/-! ## Reading the configuration back -/

/-- Settles O32: the register is answered as a bit pattern, without a reading of its value. -/
theorem getfAnswersFrequency : Obligations.GetfAnswersFrequency := by
  refine ⟨fun a b => decode_packCommand 0x6#4 a b, fun s => ?_⟩
  rw [← configured_eq_bit]
  exact ⟨exec_of_unconfigured rfl, exec_getf_of_configured⟩

/-- Settles O33, as for the frequency. -/
theorem getrAnswersSampleRate : Obligations.GetrAnswersSampleRate := by
  refine ⟨fun a b => decode_packCommand 0x7#4 a b, fun s => ?_⟩
  rw [← configured_eq_bit]
  exact ⟨exec_of_unconfigured rfl, exec_getr_of_configured⟩

end Sys2Proof.Proofs

/-! SUPPORT. The system commands (spec/43_system.md R85 to R88). -/

namespace Sys2Proof.Proofs

open Sys2Proof.Machine Sys2Proof.Safety

/-! ## What each command answers -/

theorem exec_nop (s : State) : exec .nop s = .next (respond 0 s) := rfl

theorem exec_gets (s : State) : exec .gets s = .next (respond (readStatus s) s) := rfl

section Configured

variable {s : State} (hc : configured s = true)
include hc

theorem exec_getp_of_configured : exec .getp s = .next (respond s.phase s) :=
  congrArg Host.Outcome.next (whenConfigured_of_configured hc _)

theorem exec_getd_of_configured : exec .getd s = .next (respond s.deltaPhase s) :=
  congrArg Host.Outcome.next (whenConfigured_of_configured hc _)

/-- A good configured engine holds the increment of the frequency and the rate it holds (R19). -/
theorem deltaPhase_eq_exactQ_of_blockInv (hs : BlockInv s) :
    (s.deltaPhase.toNat : ℤ) = exactQ s.frequency s.sampleRate := by
  obtain ⟨-, htuned, -⟩ := hs
  obtain ⟨-, -, hq⟩ := htuned hc
  exact hq.symm

end Configured

/-! ## The commands that need a configured engine -/

/-- Settles O36: the register is answered as it is held, and the invariant says which increment that is. -/
theorem getdAnswersIncrement : Obligations.GetdAnswersIncrement := by
  refine ⟨fun a b => decode_packCommand 0xA#4 a b, fun s => ?_⟩
  rw [← configured_eq_bit]
  exact ⟨exec_of_unconfigured rfl, exec_getd_of_configured, deltaPhase_eq_exactQ_of_blockInv⟩

/-- Settles O35: the phase is answered and not written. -/
theorem getpAnswersPhase : Obligations.GetpAnswersPhase := by
  refine ⟨fun a b => decode_packCommand 0x9#4 a b, fun s => ?_⟩
  rw [← configured_eq_bit]
  exact ⟨exec_of_unconfigured rfl, exec_getp_of_configured⟩

/-! ## The commands that answer in every state -/

/-- Settles O34: the data word 0 makes the all-zero response word. -/
theorem nopAnswersZero : Obligations.NopAnswersZero :=
  ⟨fun a b => decode_packCommand 0x0#4 a b, exec_nop⟩

/-- Settles O37: the read masks `STATUS` to its six bits and writes nothing back. -/
theorem getsAnswersStatus : Obligations.GetsAnswersStatus :=
  ⟨fun a b => decode_packCommand 0xB#4 a b, exec_gets⟩

end Sys2Proof.Proofs

/-! SUPPORT. Rejected commands: what a rejection writes, and which cause it reports (spec/60_exceptions.md R96, R97). -/

namespace Sys2Proof.Proofs

open Sys2Proof.Machine Sys2Proof.Safety

/-! ## A response with `fault = 1` comes from a rejection (R96) -/

/-- Only a rejection answers with `fault = 1`, and the response names its cause. -/
theorem exec_eq_raise_of_fault {i : Instr} {s t : State} {r : Response} (h : exec i s = .next t) (ha : Answered s t r)
    (hf : responseFault r = true) : ∃ c, r = faultResponse c ∧ t = raise c s := by
  have not_ok {d : Word} (hd : Answered s t (okResponse d)) : False := by
    rw [answered_unique ha hd, responseFault_ok] at hf
    cases hf
  rcases exec_cases h with ⟨c, rfl⟩ | ⟨_, rfl⟩ | ⟨-, -, rfl⟩ | ⟨-, -, rfl⟩ | ⟨_, _, -, -, -, rfl⟩ |
    ⟨_, _, -, -, -, rfl⟩ | ⟨_, _, _, -, -, rfl⟩
  case inl => exact ⟨c, answered_unique ha (raise_responses c s), rfl⟩
  all_goals exact (not_ok (respond_responses _ _)).elim

/-- A rejection keeps `CFG`: no cause's sticky bit is bit 0 (R18). -/
theorem raise_status_cfg (c : Cause) (s : State) : (raise c s).status.getLsbD 0 = s.status.getLsbD 0 := by
  rw [← configured_eq_bit, configured_raise, configured_eq_bit]

/-- Settles O40: a response with `fault = 1` is a rejection's, and a rejection writes `STATUS` and the transcript only. -/
theorem faultsChangeOnlyStickyBit : Obligations.FaultsChangeOnlyStickyBit := by
  intro i s t r h ha hf
  obtain ⟨c, hr, rfl⟩ := exec_eq_raise_of_fault h ha hf
  refine ⟨c, hr, ⟨rfl, rfl, rfl, rfl⟩, raise_status_cfg c s, ?_, rfl⟩
  rw [raise_eq]
  rfl

/-! ## What a command's outcome reports -/

/-- The command answers with the cause field `k`, 0 standing for success; it sets that cause's sticky bit and nothing else of
`STATUS`, or on success `CFG` if it is an `INIT` and nothing otherwise. -/
def ReportsCause (i : Instr) (s : State) (k : BitVec 3) : Prop :=
  ∃ t rsp, exec i s = .next t ∧ Answered s t rsp ∧ responseCause rsp = k ∧
    (responseFault rsp = true ↔ responseCause rsp ≠ 0#3) ∧
    (responseFault rsp = true → t.status = s.status ||| (1#32 <<< (responseCause rsp).toNat)) ∧
    (responseFault rsp = false → t.status = if (opcode i).toNat = 1 then s.status ||| 0x1#32 else s.status)

/-- Where bits 31:6 hold 0, a write that sets only implemented bits keeps all others. -/
theorem or_and_statusImplemented {s : State} (hs : StatusHardwired s) {v : Word} (hv : v &&& statusImplemented = v) :
    (s.status ||| v) &&& statusImplemented = s.status ||| v := by
  have hheld : s.status &&& statusImplemented = s.status := readStatus_of_hardwired hs
  rw [BitVec.and_or_distrib_right, hheld, hv]

theorem stickyBit_and_statusImplemented (c : Cause) : stickyBit c &&& statusImplemented = stickyBit c := by
  cases c <;> rfl

theorem causeCode_ne_zero (c : Cause) : causeCode c ≠ 0#3 := by
  cases c <;> decide

theorem reportsCause_of_raise {i : Instr} {s : State} {c : Cause} (hs : StatusHardwired s)
    (h : exec i s = .next (raise c s)) : ReportsCause i s (causeCode c) := by
  refine ⟨_, faultResponse c, h, raise_responses c s, responseCause_fault c, ?_, fun _ => ?_, fun hf => ?_⟩
  · rw [responseCause_fault, responseFault_fault]
    exact iff_of_true rfl (causeCode_ne_zero c)
  · rw [responseCause_fault, raise_eq]
    exact or_and_statusImplemented hs (stickyBit_and_statusImplemented c)
  · rw [responseFault_fault] at hf
    cases hf

theorem reportsCause_zero_of_respond {i : Instr} {s u : State} {d : Word} (h : exec i s = .next (respond d u))
    (hr : u.responses = s.responses)
    (hu : u.status = if (opcode i).toNat = 1 then s.status ||| 0x1#32 else s.status) : ReportsCause i s 0#3 := by
  refine ⟨_, okResponse d, h, ?_, responseCause_ok d, ?_, fun hf => ?_, fun _ => hu⟩
  · exact (respond_responses d u).trans (congrArg (· ++ [okResponse d]) hr)
  · rw [responseCause_ok, responseFault_ok]
    exact iff_of_false Bool.false_ne_true (not_not.mpr rfl)
  · rw [responseFault_ok] at hf
    cases hf

/-! ## The cause each command reports -/

/-- The cause field for an answer of `DPHI`. -/
def incrementCause : Except Cause Word → BitVec 3
  | .error c => causeCode c
  | .ok _ => 0#3

/-- The last three causes, in R97's order. -/
theorem incrementCause_dphi (f r : Word) : incrementCause (dphi f r) =
    if positive r = false then 3#3
    else if finite f = false then 4#3
    else if exactQ f r < 0 ∨ 2 ^ 32 ≤ exactQ f r then 5#3
    else 0#3 := by
  rw [incrementChecksInOrder f r, apply_ite incrementCause, apply_ite incrementCause, apply_ite incrementCause]
  rfl

theorem reserved_reportsCause {s : State} (hs : StatusHardwired s) (op : BitVec 4) : ReportsCause (.reserved op) s 1#3 :=
  reportsCause_of_raise (c := .illegalCommand) hs rfl

theorem reportsCause_of_unconfigured {i : Instr} {s : State} (hs : StatusHardwired s) (hi : needsConfigured i = true)
    (hc : configured s = false) : ReportsCause i s 2#3 :=
  reportsCause_of_raise (c := .notConfigured) hs (by rw [exec_of_unconfigured hi hc, raise_notConfigured])

theorem init_reportsCause {s : State} (hs : StatusHardwired s) (f r : Word) :
    ReportsCause (.init f r) s (incrementCause (dphi f r)) := by
  cases hd : dphi f r with
  | error c => exact reportsCause_of_raise hs (exec_init_of_error hd s)
  | ok d =>
    refine reportsCause_zero_of_respond (exec_init_of_ok hd s) rfl ?_
    rw [setConfigured_eq]
    exact or_and_statusImplemented hs rfl

theorem setf_reportsCause {s : State} (hs : StatusHardwired s) (hc : configured s = true) (f : Word) :
    ReportsCause (.setf f) s (incrementCause (dphi f s.sampleRate)) := by
  cases hd : dphi f s.sampleRate with
  | error c => exact reportsCause_of_raise hs (exec_setf_of_error hc hd)
  | ok d => exact reportsCause_zero_of_respond (exec_setf_of_ok hc hd) rfl rfl

theorem setr_reportsCause {s : State} (hs : StatusHardwired s) (hc : configured s = true) (r : Word) :
    ReportsCause (.setr r) s (incrementCause (dphi s.frequency r)) := by
  cases hd : dphi s.frequency r with
  | error c => exact reportsCause_of_raise hs (exec_setr_of_error hc hd)
  | ok d => exact reportsCause_zero_of_respond (exec_setr_of_ok hc hd) rfl rfl

/-! ## R97's order -/

/-- The first cause that holds, in R97's order: `op` is the word's opcode, `f` and `r` the operands in play. -/
def firstCause (op : Nat) (f r : Word) (s : State) : BitVec 3 :=
  if 12 ≤ op then 1#3
  else if op ∈ [2, 3, 4, 5, 6, 7, 9, 10] ∧ s.status.getLsbD 0 = false then 2#3
  else if (op = 1 ∨ op = 4) ∧ positive r = false then 3#3
  else if (op = 1 ∨ op = 3) ∧ finite f = false then 4#3
  else if (op = 1 ∨ op = 3 ∨ op = 4) ∧ (exactQ f r < 0 ∨ 2 ^ 32 ≤ exactQ f r) then 5#3
  else 0#3

section Order

variable {s : State}

theorem firstCause_of_reserved {op : Nat} (h : 12 ≤ op) (f r : Word) : firstCause op f r s = 1#3 := if_pos h

theorem firstCause_of_unconfigured {op : Nat} (hop : op ∈ [2, 3, 4, 5, 6, 7, 9, 10]) (hc : configured s = false)
    (f r : Word) : firstCause op f r s = 2#3 := by
  have hlt : ∀ k ∈ [2, 3, 4, 5, 6, 7, 9, 10], ¬ 12 ≤ k := by decide
  rw [firstCause, if_neg (hlt op hop), if_pos ⟨hop, configured_eq_bit s ▸ hc⟩]

/-- `INIT` looks at both operands, and no register. -/
theorem firstCause_init (f r : Word) : firstCause 1 f r s = incrementCause (dphi f r) := by
  simp [firstCause, incrementCause_dphi]

/-- `SETF` does not look at the rate held, which is positive in a good state (R19). -/
theorem firstCause_setf (hc : configured s = true) {r : Word} (hr : positive r = true) (f : Word) :
    firstCause 3 f r s = incrementCause (dphi f r) := by
  rw [configured_eq_bit] at hc
  simp [firstCause, incrementCause_dphi, hc, hr]

/-- `SETR` does not look at the frequency held, which is finite in a good state (R19). -/
theorem firstCause_setr (hc : configured s = true) {f : Word} (hf : finite f = true) (r : Word) :
    firstCause 4 f r s = incrementCause (dphi f r) := by
  rw [configured_eq_bit] at hc
  simp [firstCause, incrementCause_dphi, hc, hf]

/-- Nothing is left to reject once `CFG` is checked and no increment is computed. -/
theorem firstCause_eq_zero {op : Nat} (hlt : op < 12) (hop : op ≠ 1 ∧ op ≠ 3 ∧ op ≠ 4)
    (hc : op ∈ [2, 3, 4, 5, 6, 7, 9, 10] → configured s = true) (f r : Word) : firstCause op f r s = 0#3 := by
  obtain ⟨h1, h3, h4⟩ := hop
  have hchecked : ¬ (op ∈ [2, 3, 4, 5, 6, 7, 9, 10] ∧ s.status.getLsbD 0 = false) := by
    rintro ⟨hm, hu⟩
    rw [← configured_eq_bit, hc hm] at hu
    cases hu
  rw [firstCause, if_neg (by omega), if_neg hchecked]
  simp [h1, h3, h4]

end Order

/-! ## The commands of a word -/

/-- The configured check in the word's opcode (R73). -/
theorem needsConfigured_decode_iff (cw : CommandWord) :
    needsConfigured (decode cw) = true ↔ (opField cw).toNat ∈ [2, 3, 4, 5, 6, 7, 9, 10] := by
  unfold decode
  split
  case h_13 =>
    simp only [imp_false] at *
    simp [needsConfigured, *]
  all_goals simp [needsConfigured, *]

/-- A word is reserved, or computes an increment with its operands, or only reads or moves the phase (R43, R47). -/
theorem decode_cases (cw : CommandWord) :
    (12 ≤ (opField cw).toNat ∧ decode cw = .reserved (opField cw)) ∨
    ((opField cw).toNat = 1 ∧ decode cw = .init (aField cw) (bField cw)) ∨
    ((opField cw).toNat = 3 ∧ decode cw = .setf (aField cw)) ∨
    ((opField cw).toNat = 4 ∧ decode cw = .setr (bField cw)) ∨
    ((opField cw).toNat < 12 ∧ ((opField cw).toNat ≠ 1 ∧ (opField cw).toNat ≠ 3 ∧ (opField cw).toNat ≠ 4) ∧
      (onlyReads (decode cw) = true ∨ decode cw = .sample ∨ decode cw = .rstp)) := by
  unfold decode
  split
  case h_13 =>
    simp only [imp_false] at *
    have hop : 12 ≤ (opField cw).toNat := by omega
    exact .inl ⟨hop, trivial⟩
  all_goals simp [onlyReads, *]

/-- What neither is reserved nor computes an increment succeeds once `CFG` is checked, and leaves `STATUS`. -/
theorem reportsCause_zero_of_checked {i : Instr} {s : State} (hi : onlyReads i = true ∨ i = .sample ∨ i = .rstp)
    (hc : needsConfigured i = true → configured s = true) : ReportsCause i s 0#3 := by
  cases i
  case init | setf | setr | reserved => simp [onlyReads] at hi
  case nop => exact reportsCause_zero_of_respond (exec_nop s) rfl rfl
  case sample => exact reportsCause_zero_of_respond (exec_sample_of_configured (hc rfl)) rfl rfl
  case rstp => exact reportsCause_zero_of_respond (exec_rstp_of_configured (hc rfl)) rfl rfl
  case getf => exact reportsCause_zero_of_respond (exec_getf_of_configured (hc rfl)) rfl rfl
  case getr => exact reportsCause_zero_of_respond (exec_getr_of_configured (hc rfl)) rfl rfl
  case lookup idx => exact reportsCause_zero_of_respond (exec_lookup idx s) rfl rfl
  case getp => exact reportsCause_zero_of_respond (exec_getp_of_configured (hc rfl)) rfl rfl
  case getd => exact reportsCause_zero_of_respond (exec_getd_of_configured (hc rfl)) rfl rfl
  case gets => exact reportsCause_zero_of_respond (exec_gets s) rfl rfl

/-- The frequency in play for a word: its own, or the one held (R97). -/
def frequencyInPlay (cw : CommandWord) (s : State) : Word :=
  if (opField cw).toNat = 1 ∨ (opField cw).toNat = 3 then aField cw else s.frequency

/-- The sample rate in play for a word: its own, or the one held (R97). -/
def sampleRateInPlay (cw : CommandWord) (s : State) : Word :=
  if (opField cw).toNat = 1 ∨ (opField cw).toNat = 4 then bField cw else s.sampleRate

/-- In a good state every word reports the first cause that holds for its operands in play (R97). -/
theorem decode_reportsCause (cw : CommandWord) {s : State} (hs : BlockInv s) :
    ReportsCause (decode cw) s
      (firstCause (opField cw).toNat (frequencyInPlay cw s) (sampleRateInPlay cw s) s) := by
  obtain ⟨hw, htuned, -⟩ := hs
  by_cases hu : needsConfigured (decode cw) = true ∧ configured s = false
  · obtain ⟨hn, hc⟩ := hu
    rw [firstCause_of_unconfigured ((needsConfigured_decode_iff cw).mp hn) hc]
    exact reportsCause_of_unconfigured hw hn hc
  have hc : needsConfigured (decode cw) = true → configured s = true := by simpa using hu
  rcases decode_cases cw with ⟨hop, e⟩ | ⟨hop, e⟩ | ⟨hop, e⟩ | ⟨hop, e⟩ | ⟨hlt, hop, hi⟩
  · rw [e, firstCause_of_reserved hop]
    exact reserved_reportsCause hw _
  · have hf : frequencyInPlay cw s = aField cw := if_pos (.inl hop)
    have hr : sampleRateInPlay cw s = bField cw := if_pos (.inl hop)
    rw [e, hop, hf, hr, firstCause_init]
    exact init_reportsCause hw _ _
  · have hf : frequencyInPlay cw s = aField cw := if_pos (.inr hop)
    have hr : sampleRateInPlay cw s = s.sampleRate := if_neg (by omega)
    have hcfg : configured s = true := hc (by rw [e]; rfl)
    obtain ⟨-, hpos, -⟩ := htuned hcfg
    rw [e, hop, hf, hr, firstCause_setf hcfg hpos]
    exact setf_reportsCause hw hcfg _
  · have hf : frequencyInPlay cw s = s.frequency := if_neg (by omega)
    have hr : sampleRateInPlay cw s = bField cw := if_pos (.inr hop)
    have hcfg : configured s = true := hc (by rw [e]; rfl)
    obtain ⟨hfin, -, -⟩ := htuned hcfg
    rw [e, hop, hf, hr, firstCause_setr hcfg hfin]
    exact setr_reportsCause hw hcfg _
  · rw [firstCause_eq_zero hlt hop fun hm => hc ((needsConfigured_decode_iff cw).mpr hm)]
    exact reportsCause_zero_of_checked hi hc

/-- Settles O42, by the word's opcode: reserved, rejected by the configured check, computing an increment, or succeeding. -/
theorem oneCauseInOrder : Obligations.OneCauseInOrder := by
  intro cw s hs
  obtain ⟨t, rsp, hx, ha, hcause, hfault, hsticky, hok⟩ := decode_reportsCause cw hs
  rw [opcode_decode] at hok
  exact ⟨t, rsp, hx, ha, hcause, hfault, hsticky, hok⟩

end Sys2Proof.Proofs

/-! SUPPORT. Commands to words and back (spec/30_encoding.md R40 to R43, R47, R49). -/

namespace Sys2Proof.Proofs

open Sys2Proof.Machine

/-- The reserved opcodes, whatever the operand fields hold (R47). -/
theorem decode_packCommand_of_reserved {op : BitVec 4} (hop : 0xC#4 ≤ op) (a b : Word) :
    decode (packCommand op a b) = .reserved op := by
  have h := decode_eq_reserved_iff (packCommand op a b)
  rw [opField_packCommand] at h
  exact h.mpr hop

/-- Settles O2, by the command: an opcode below `0xC` names its row, and a well-formed reserved term
carries one that is not. -/
theorem decodeEncodeRoundTrip : Obligations.DecodeEncodeRoundTrip := by
  intro i hi
  cases i
  case reserved op => exact decode_packCommand_of_reserved (of_decide_eq_true hi) 0 0
  all_goals exact decode_packCommand _ _ _

/-- No word decodes to an ill-formed term (R47). -/
theorem wellFormed_decode (cw : CommandWord) : (decode cw).wellFormed = true := by
  cases h : decode cw
  case reserved op =>
    have hop : op = opField cw := by rw [← opcode_decode, h]; rfl
    exact decide_eq_true (hop ▸ (decode_eq_reserved_iff cw).mp (hop ▸ h))
  all_goals rfl

theorem opField_encode (i : Instr) : opField (encode i) = opcode i := by
  cases i <;> exact opField_packCommand _ _ _

/-- Settles O3: what a word decodes to is well-formed, so the round trip applies to it. -/
theorem everyWordDecodesWellFormed : Obligations.EveryWordDecodesWellFormed := fun cw =>
  ⟨wellFormed_decode cw, by rw [opField_encode, opcode_decode], decodeEncodeRoundTrip _ (wellFormed_decode cw)⟩

/-- Settles O1: each of the fourteen words is fixed, and its decoding is computed. -/
theorem decodeOfSpecWords : Obligations.DecodeOfSpecWords := by
  unfold Obligations.DecodeOfSpecWords
  decide

theorem decodeTableWord_of_lt {nbits w : Nat} (h : w % 2 ^ nbits < 2 ^ 68) :
    decodeTableWord nbits w = some (decode (BitVec.ofNat 68 (w % 2 ^ nbits))) := by
  rw [decodeTableWord, decodeBits, if_pos h]

theorem decodeTableWord_of_le {nbits w : Nat} (h : 2 ^ 68 ≤ w % 2 ^ nbits) : decodeTableWord nbits w = none := by
  rw [decodeTableWord, decodeBits, if_neg (not_lt.mpr h)]

/-- Settles O5: cutting a number below `2^68` to at least 68 bits leaves it, and what is still longer is rejected. -/
theorem tableWordsDecode : Obligations.TableWordsDecode := by
  refine ⟨fun nbits w hn hw => ?_, fun nbits w => decodeTableWord_of_le⟩
  have hcut : w % 2 ^ nbits = w := Nat.mod_eq_of_lt (hw.trans_le (Nat.pow_le_pow_right two_pos hn))
  rw [decodeTableWord_of_lt (by rwa [hcut]), hcut]

/-- Settles O38: the row is selected by the opcode alone, and rejecting it looks at nothing. -/
theorem reservedOpcodesRejected : Obligations.ReservedOpcodesRejected :=
  ⟨fun _ a b hop => decode_packCommand_of_reserved hop a b,
    fun _ s => congrArg Host.Outcome.next (raise_eq .illegalCommand s)⟩

end Sys2Proof.Proofs

/-! SUPPORT. One step by the host's next input, and runs of steps (spec/30_encoding.md R53,
spec/70_reset_and_hazards.md R105). -/

namespace Sys2Proof.Proofs

open Sys2Proof.Machine Sys2Proof.Safety

/-! ## A step by the next input -/

section NextInput

variable {s : State} {rest : List HostInput}

theorem step_of_command {cw : CommandWord} (h : s.inputs = .command cw :: rest) :
    step s = exec (decode cw) (consume rest s) := by
  simp only [step, h]

theorem step_of_abandoned {cw : CommandWord} (h : s.inputs = .abandoned cw :: rest) :
    step s = .next (hardwareReset (consume rest s)) := by
  simp only [step, h, abandonCommand_eq]

theorem step_of_reset (h : s.inputs = .reset :: rest) : step s = .next (hardwareReset (consume rest s)) := by
  simp only [step, h]

theorem step_of_idle (h : s.inputs = .idle :: rest) : step s = .next (consume rest s) := by
  simp only [step, h, idleCycle_eq]

theorem step_of_no_input (h : s.inputs = []) : step s = .next s := by
  simp only [step, h, idleCycle_eq]

end NextInput

/-- The machine never stops: every step has a next state (R48, R53). -/
theorem step_is_next (s : State) : ∃ t, step s = .next t := by
  cases h : s.inputs with
  | nil => exact ⟨_, step_of_no_input h⟩
  | cons e rest =>
    cases e with
    | command cw => rw [step_of_command h]; exact exec_is_next _ _
    | abandoned cw => exact ⟨_, step_of_abandoned h⟩
    | reset => exact ⟨_, step_of_reset h⟩
    | idle => exact ⟨_, step_of_idle h⟩

/-- Settles O6, by the next input; a word below `2^nbits` and `2^68` is placed uncut. -/
theorem stepRunsDecodedCommand : Obligations.StepRunsDecodedCommand := by
  refine ⟨fun s cw rest => step_of_command, fun s nbits w hn _ => ?_, fun s => step_of_no_input, fun s rest => step_of_idle⟩
  have h := step_of_command (presentWord_inputs nbits w s)
  rw [Nat.mod_eq_of_lt hn] at h
  exact h

/-- Settles O7: a reset input is the hardware reset, whose values are `State.reset`'s. -/
theorem resetLeavesZeros : Obligations.ResetLeavesZeros :=
  ⟨fun _ _ => step_of_reset, rfl, rfl, rfl, rfl, rfl, by decide, by decide⟩

/-- Settles O8: both inputs are the hardware reset on the state with that input taken. -/
theorem resetAbandonsCommand : Obligations.ResetAbandonsCommand := by
  intro s cw rest h
  refine ⟨step_of_abandoned h, ?_⟩
  rw [step_of_abandoned h, step_of_reset (s := { s with inputs := .reset :: rest }) rfl]
  rfl

/-- `LOOKUP` reads the table of `Config.params` in every state: no state holds a table (R30). -/
theorem sameTable (s t : State) : SameTable s t := fun idx => ⟨_, exec_lookup idx s, exec_lookup idx t⟩

/-- Settles O22: what `LOOKUP` reads does not depend on the state at all. -/
theorem tableReadsNeverChange : Obligations.TableReadsNeverChange := fun s t _ => sameTable s t

/-! ## Runs -/

theorem run_succ_of_step {s t : State} (h : step s = .next t) (n : Nat) : core.run (n + 1) s = core.run n t := by
  have hcore : core.step s = .next t := h
  simp only [Host.Core.run, hcore]

/-- No command takes one of the host's further inputs or adds to them. -/
theorem exec_inputs {i : Instr} {s t : State} (h : exec i s = .next t) : t.inputs = s.inputs := by
  rcases exec_cases h with ⟨_, rfl⟩ | ⟨_, rfl⟩ | ⟨-, -, rfl⟩ | ⟨-, -, rfl⟩ | ⟨_, _, -, -, -, rfl⟩ |
    ⟨_, _, -, -, -, rfl⟩ | ⟨_, _, _, -, -, rfl⟩ <;> rfl

theorem exec_responses_length {i : Instr} {s t : State} (h : exec i s = .next t) :
    t.responses.length = s.responses.length + 1 := by
  rcases exec_answers h with ⟨d, e⟩ | ⟨c, e⟩ <;> rw [e, List.length_append, List.length_singleton]

/-- The inputs that get a response: commands that are left to answer (R44, R107). -/
def getsAnswer (e : HostInput) : Bool := e matches .command _

/-- One step takes at most one input, and answers it if it is a command that is left to answer. -/
theorem step_transcript {s t : State} (h : step s = .next t) :
    t.inputs = s.inputs.drop 1 ∧
      t.responses.length = s.responses.length + (s.inputs.take 1).countP getsAnswer := by
  rcases step_cases h with ⟨hin, rfl⟩ | ⟨cw, rest, hin, hx⟩ | ⟨cw, rest, hin, rfl⟩ | ⟨rest, hin, rfl⟩ |
    ⟨rest, hin, rfl⟩
  case inr.inl =>
    rw [exec_inputs hx, exec_responses_length hx, hin]
    exact ⟨rfl, rfl⟩
  all_goals
    rw [hin]
    exact ⟨by simp, rfl⟩

/-- A run of `n` steps ends, has taken the first `n` inputs and has answered the commands among them. -/
theorem run_transcript (n : Nat) (s : State) : ∃ t, core.run n s = .next t ∧ t.inputs = s.inputs.drop n ∧
    t.responses.length = s.responses.length + (s.inputs.take n).countP getsAnswer := by
  induction n generalizing s with
  | zero => exact ⟨s, rfl, rfl, rfl⟩
  | succ n ih =>
    obtain ⟨u, hu⟩ := step_is_next s
    obtain ⟨hin, hlen⟩ := step_transcript hu
    obtain ⟨t, ht, htin, htlen⟩ := ih u
    refine ⟨t, (run_succ_of_step hu n).trans ht, ?_, ?_⟩
    · rw [htin, hin, List.drop_drop, Nat.add_comm]
    · rw [htlen, hlen, hin, Nat.add_comm n 1, List.take_add, List.countP_append, Nat.add_assoc]

/-- Settles O9, by induction on the number of steps. -/
theorem runsNeverStop : Obligations.RunsNeverStop := run_transcript

end Sys2Proof.Proofs

/-! SUPPORT. The invariant of the block (spec/10_state.md R18, R19). -/

namespace Sys2Proof.Proofs

open Sys2Proof.Machine Sys2Proof.Safety

/-! ## What keeps the invariant -/

/-- A command keeps `STATUS[31:6]` at 0 (R18). -/
theorem exec_keeps_hardwired {i : Instr} {s t : State} (hs : StatusHardwired s) (h : exec i s = .next t) :
    StatusHardwired t := by
  rcases exec_status_cases h with e | ⟨v, e⟩
  · rwa [StatusHardwired, e]
  · rw [StatusHardwired, e, BitVec.and_assoc, BitVec.and_not_self]
    exact BitVec.and_zero

/-- Where `DPHI` succeeds its operands and its increment belong together (R19, R65). -/
theorem exactQ_eq_of_dphi_ok {f r d : Word} (h : dphi f r = .ok d) :
    finite f = true ∧ positive r = true ∧ exactQ f r = (d.toNat : ℤ) := by
  obtain ⟨hr, hf, -, -, hq⟩ := dphi_eq_ok h
  exact ⟨hf, hr, (unboundedIncrement_eq_exactQ hr f).symm.trans hq⟩

section Keeps

variable {s t : State} (ht : StatusHardwired t)
include ht

/-- What leaves the oscillator and `CFG` keeps the rest of the invariant. -/
theorem blockInv_of_sameOscillator (hs : BlockInv s) (ho : SameOscillator s t) (hc : configured t = configured s) :
    BlockInv t := by
  obtain ⟨-, htuned, hclear⟩ := hs
  obtain ⟨hp, hd, hf, hr⟩ := ho
  exact ⟨ht, by rwa [hc, Tuned, hd, hf, hr], by rwa [hc, OscillatorClear, hp, hd, hf, hr]⟩

theorem blockInv_of_tuned (hc : configured t = true) (htuned : Tuned t) : BlockInv t :=
  ⟨ht, fun _ => htuned, fun hu => absurd (hc.symm.trans hu) (by decide)⟩

end Keeps

/-- Taking an input writes no register. -/
theorem blockInv_consume {s : State} (hs : BlockInv s) (l : List HostInput) : BlockInv (consume l s) := hs

theorem blockInv_hardwareReset (s : State) : BlockInv (hardwareReset s) :=
  ⟨BitVec.zero_and, fun hc => absurd ((configured_hardwareReset s).symm.trans hc) Bool.false_ne_true,
    fun _ => ⟨rfl, rfl, rfl, rfl⟩⟩

/-- Settles O10: `State.reset` is what a hardware reset leaves. -/
theorem invariantAtReset : Obligations.InvariantAtReset := blockInv_hardwareReset State.reset

/-! ## Every command and every step -/

/-- A command that moves the phase alone finds a tuned engine and leaves one; one that computes an increment leaves the
operands and the increment that `DPHI` put together; any other leaves the oscillator and `CFG` (R75, R79, R80, R96). -/
theorem exec_keeps_blockInv {i : Instr} {s t : State} (hs : BlockInv s) (h : exec i s = .next t) : BlockInv t := by
  have ⟨hheld, htuned, _⟩ := hs
  have hw : StatusHardwired t := exec_keeps_hardwired hheld h
  rcases exec_cases h with ⟨c, rfl⟩ | ⟨d, rfl⟩ | ⟨-, hc, rfl⟩ | ⟨-, hc, rfl⟩ | ⟨f, d, -, hc, hd, rfl⟩ |
    ⟨r, d, -, hc, hd, rfl⟩ | ⟨f, r, d, -, hd, rfl⟩
  · exact blockInv_of_sameOscillator hw hs ⟨rfl, rfl, rfl, rfl⟩ (configured_raise c s)
  · exact blockInv_of_sameOscillator hw hs ⟨rfl, rfl, rfl, rfl⟩ (configured_respond d s)
  · exact blockInv_of_tuned hw hc (htuned hc)
  · exact blockInv_of_tuned hw hc (htuned hc)
  · exact blockInv_of_tuned hw hc (exactQ_eq_of_dphi_ok hd)
  · exact blockInv_of_tuned hw hc (exactQ_eq_of_dphi_ok hd)
  · exact blockInv_of_tuned hw (configured_setConfigured _) (exactQ_eq_of_dphi_ok hd)

/-- Settles O11, by the cases of a step: a command keeps the invariant, a reset establishes it, and the rest is taking an
input. -/
theorem invariantKeptByEveryStep : Obligations.InvariantKeptByEveryStep := by
  intro s t hs h
  rcases step_cases h with ⟨-, rfl⟩ | ⟨cw, rest, -, hx⟩ | ⟨cw, rest, -, rfl⟩ | ⟨rest, -, rfl⟩ | ⟨rest, -, rfl⟩
  · exact hs
  · exact exec_keeps_blockInv (blockInv_consume hs rest) hx
  · exact blockInv_hardwareReset _
  · exact blockInv_hardwareReset _
  · exact blockInv_consume hs rest

end Sys2Proof.Proofs

/-! SUPPORT. What each command leaves as it was (spec/10_state.md R18, spec/20_memory.md R30, spec/42_nco_engine.md). -/

namespace Sys2Proof.Proofs

open Sys2Proof.Machine Sys2Proof.Safety

/-! ## The two kinds of response exclude each other (R44) -/

theorem not_fault_okResponse (d : Word) : ¬ responseFault (okResponse d) = true := by
  rw [responseFault_ok]
  decide

theorem not_ok_faultResponse (c : Cause) : ¬ responseFault (faultResponse c) = false := by
  rw [responseFault_fault]
  decide

/-! ## `STATUS` -/

/-- Only an accepted `INIT` sets `CFG` (R18). -/
theorem exec_sets_cfg {i : Instr} {s t : State} (h : exec i s = .next t) (hs : configured s = false)
    (ht : configured t = true) : ∃ f r d, i = .init f r ∧ dphi f r = .ok d := by
  have not_kept (hkept : configured t = configured s) : False := by
    rw [hkept, hs] at ht
    cases ht
  rcases exec_cases h with ⟨c, rfl⟩ | ⟨_, rfl⟩ | ⟨-, -, rfl⟩ | ⟨-, -, rfl⟩ | ⟨_, _, -, -, -, rfl⟩ |
    ⟨_, _, -, -, -, rfl⟩ | ⟨f, r, d, hi, hd, -⟩
  case inl => exact (not_kept (configured_raise c s)).elim
  case inr.inr.inr.inr.inr.inr => exact ⟨f, r, d, hi, hd⟩
  all_goals exact (not_kept rfl).elim

/-- Settles O43: a write of `STATUS` only sets bits, and the one write that sets `CFG` is an accepted `INIT`'s. -/
theorem statusBitsNeverFall : Obligations.StatusBitsNeverFall := by
  intro i s t h
  rw [← configured_eq_bit, ← configured_eq_bit]
  exact ⟨fun n hn => exec_keeps_status_bit h hn, exec_sets_cfg h⟩

/-! ## Commands that only read, and commands that move the phase -/

/-- The data a reading command answers (R59, R82, R83, R85 to R88). -/
def readAnswer : Instr → State → Word
  | .getf, s => s.frequency
  | .getr, s => s.sampleRate
  | .lookup idx, _ => Config.params.rom (idx.toNat % 2 ^ Config.params.bitDepth)
  | .getp, s => s.phase
  | .getd, s => s.deltaPhase
  | .gets, s => readStatus s
  | _, _ => 0

/-- A reading command whose check passes answers its data and writes no register. -/
theorem exec_of_onlyReads {i : Instr} {s : State} (hi : onlyReads i = true)
    (hc : needsConfigured i = true → configured s = true) : exec i s = .next (respond (readAnswer i s) s) := by
  cases i
  case init | sample | setf | setr | rstp | reserved => cases hi
  case nop => exact exec_nop s
  case getf => exact exec_getf_of_configured (hc rfl)
  case getr => exact exec_getr_of_configured (hc rfl)
  case lookup idx => exact exec_lookup idx s
  case getp => exact exec_getp_of_configured (hc rfl)
  case getd => exact exec_getd_of_configured (hc rfl)
  case gets => exact exec_gets s

/-- Settles O45: a reading command's next state is the old one with a response added. -/
theorem frameOfReadingCommands : Obligations.FrameOfReadingCommands := by
  intro i s hi hc
  rw [← configured_eq_bit] at hc
  exact ⟨_, _, exec_of_onlyReads hi hc, ⟨rfl, rfl, rfl, rfl⟩, rfl, rfl, rfl, sameTable _ _⟩

/-- Settles O46: once `CFG` is checked both commands write the phase and answer. -/
theorem frameOfPhaseCommands : Obligations.FrameOfPhaseCommands := by
  intro i s hi hc
  rw [← configured_eq_bit] at hc
  rcases hi with rfl | rfl
  · exact ⟨_, _, exec_sample_of_configured hc, rfl, rfl, rfl, rfl, rfl, rfl, sameTable _ _⟩
  · exact ⟨_, _, exec_rstp_of_configured hc, rfl, rfl, rfl, rfl, rfl, rfl, sameTable _ _⟩

/-! ## The setters, `INIT` and the reserved opcodes -/

/-- Everything `SETF` can do (R79). -/
theorem exec_setf_cases (f : Word) (s : State) : (∃ c, exec (.setf f) s = .next (raise c s)) ∨
    ∃ d, exec (.setf f) s = .next (respond 0 { s with frequency := f, deltaPhase := d }) := by
  cases hc : configured s
  · exact .inl ⟨.notConfigured, by rw [exec_of_unconfigured rfl hc, raise_notConfigured]⟩
  · cases hd : dphi f s.sampleRate with
    | error c => exact .inl ⟨c, exec_setf_of_error hc hd⟩
    | ok d => exact .inr ⟨d, exec_setf_of_ok hc hd⟩

/-- Everything `SETR` can do (R80). -/
theorem exec_setr_cases (r : Word) (s : State) : (∃ c, exec (.setr r) s = .next (raise c s)) ∨
    ∃ d, exec (.setr r) s = .next (respond 0 { s with sampleRate := r, deltaPhase := d }) := by
  cases hc : configured s
  · exact .inl ⟨.notConfigured, by rw [exec_of_unconfigured rfl hc, raise_notConfigured]⟩
  · cases hd : dphi s.frequency r with
    | error c => exact .inl ⟨c, exec_setr_of_error hc hd⟩
    | ok d => exact .inr ⟨d, exec_setr_of_ok hc hd⟩

/-- What a setter leaves; `kept` is the register that the other setter writes. -/
def SetterFrame (kept : State → Word) (s t : State) (r : Response) : Prop :=
  Answered s t r ∧ t.phase = s.phase ∧ kept t = kept s ∧ t.status.getLsbD 0 = s.status.getLsbD 0 ∧ t.inputs = s.inputs ∧
    SameTable s t ∧ (responseFault r = false → t.status = s.status) ∧ (responseFault r = true → SameOscillator s t)

theorem raise_setterFrame (kept : State → Word) {c : Cause} {s : State} (hk : kept (raise c s) = kept s) :
    SetterFrame kept s (raise c s) (faultResponse c) :=
  ⟨rfl, rfl, hk, raise_status_cfg c s, rfl, sameTable _ _, fun hf => absurd hf (not_ok_faultResponse c),
    fun _ => ⟨rfl, rfl, rfl, rfl⟩⟩

/-- An accepted setter writes neither the phase, nor `kept`, nor `STATUS`. -/
theorem respond_setterFrame (kept : State → Word) {s u : State} (hp : u.phase = s.phase)
    (hk : kept (respond 0 u) = kept s) (hs : u.status = s.status) (hi : u.inputs = s.inputs)
    (hr : u.responses = s.responses) : SetterFrame kept s (respond 0 u) (okResponse 0) :=
  ⟨congrArg (· ++ [okResponse 0]) hr, hp, hk, congrArg (·.getLsbD 0) hs, hi, sameTable _ _, fun _ => hs,
    fun hf => absurd hf (not_fault_okResponse 0)⟩

/-- Settles O47: a rejected setter writes `STATUS` alone, and an accepted one its operand and the increment. -/
theorem frameOfSetters : Obligations.FrameOfSetters := by
  intro x s
  constructor
  · rcases exec_setf_cases x s with ⟨c, h⟩ | ⟨d, h⟩
    · exact ⟨_, _, h, raise_setterFrame State.sampleRate rfl⟩
    · exact ⟨_, _, h, respond_setterFrame State.sampleRate rfl rfl rfl rfl rfl⟩
  · rcases exec_setr_cases x s with ⟨c, h⟩ | ⟨d, h⟩
    · exact ⟨_, _, h, raise_setterFrame State.frequency rfl⟩
    · exact ⟨_, _, h, respond_setterFrame State.frequency rfl rfl rfl rfl rfl⟩

/-- Setting `CFG` leaves the five sticky bits (R75). -/
theorem setConfigured_sticky_bit {n : Nat} (h1 : 1 ≤ n) (h5 : n ≤ 5) (s : State) :
    (setConfigured s).status.getLsbD n = s.status.getLsbD n := by
  have hcfg : cfgBit.getLsbD n = false := by interval_cases n <;> rfl
  rw [setConfigured_eq]
  simp [hcfg, getLsbD_statusImplemented (show n < 6 by omega)]

/-- What `INIT` and the reserved opcodes leave, in the state after and in terms of its response. -/
def InitFrame (s t : State) (rsp : Response) : Prop :=
  Answered s t rsp ∧ t.inputs = s.inputs ∧ SameTable s t ∧
    (responseFault rsp = false → ∀ n, 1 ≤ n → n ≤ 5 → t.status.getLsbD n = s.status.getLsbD n) ∧
    (responseFault rsp = true → SameOscillator s t ∧ t.status.getLsbD 0 = s.status.getLsbD 0)

theorem raise_initFrame (c : Cause) (s : State) : InitFrame s (raise c s) (faultResponse c) :=
  ⟨rfl, rfl, sameTable _ _, fun hf => absurd hf (not_ok_faultResponse c),
    fun _ => ⟨⟨rfl, rfl, rfl, rfl⟩, raise_status_cfg c s⟩⟩

/-- Settles O48: a rejection writes a sticky bit alone, and an accepted `INIT` sets no sticky bit. -/
theorem frameOfInitAndReserved : Obligations.FrameOfInitAndReserved := by
  rintro i s (⟨f, r, rfl⟩ | ⟨op, rfl⟩)
  · cases hd : dphi f r with
    | error c => exact ⟨_, _, exec_init_of_error hd s, raise_initFrame c s⟩
    | ok d =>
      exact ⟨_, okResponse 0, exec_init_of_ok hd s, rfl, rfl, sameTable _ _,
        fun _ n h1 h5 => setConfigured_sticky_bit h1 h5 _,
        fun hf => absurd hf (not_fault_okResponse 0)⟩
  · exact ⟨_, _, rfl, raise_initFrame .illegalCommand s⟩

end Sys2Proof.Proofs

/-! SUPPORT. What a command cannot see (spec/10_state.md R22, R25), and several blocks (spec/60_exceptions.md R103). -/

namespace Sys2Proof.Proofs

open Sys2Proof.Machine Sys2Proof.Safety

/-! ## Two states that look alike -/

/-- The states agree in the oscillator and in the bits of `STATUS` whose numbers `P` picks; the port is not compared. -/
def AgreeOn (P : Nat → Prop) (s s' : State) : Prop :=
  SameOscillator s s' ∧ ∀ n, P n → s'.status.getLsbD n = s.status.getLsbD n

/-- Both states have answered the same word and agree as before. -/
def AnswerAlike (P : Nat → Prop) (s s' t t' : State) : Prop :=
  AgreeOn P t t' ∧ ∃ r, Answered s t r ∧ Answered s' t' r

section Alike

variable {P : Nat → Prop} {s s' : State}

theorem agreeOn_or_status {v m : Word} (h : AgreeOn P s s') (l l' : List Response) :
    AgreeOn P { s with status := (s.status ||| v) &&& m, responses := l }
      { s' with status := (s'.status ||| v) &&& m, responses := l' } :=
  ⟨h.1, fun n hn => by simp [h.2 n hn]⟩

theorem raise_answerAlike (h : AgreeOn P s s') (c : Cause) : AnswerAlike P s s' (raise c s) (raise c s') := by
  refine ⟨?_, faultResponse c, rfl, rfl⟩
  rw [raise_eq, raise_eq]
  exact agreeOn_or_status h _ _

/-- Registers written alike and answered alike look alike. -/
theorem respond_answerAlike {u u' : State} (d : Word) (h : AgreeOn P u u') (hu : u.responses = s.responses)
    (hu' : u'.responses = s'.responses) : AnswerAlike P s s' (respond d u) (respond d u') :=
  ⟨h, okResponse d, by rw [Answered, respond_responses, hu], by rw [Answered, respond_responses, hu']⟩

/-- A reading command reads the oscillator, or the table, or is `GETS` and reads `STATUS`. -/
theorem readAnswer_congr {i : Instr} (h : AgreeOn P s s') (hg : i = .gets → s'.status = s.status) :
    readAnswer i s' = readAnswer i s := by
  obtain ⟨⟨hp, hd, hf, hr⟩, -⟩ := h
  cases i
  case getf => exact hf
  case getr => exact hr
  case getp => exact hp
  case getd => exact hd
  case gets => exact congrArg (· &&& statusImplemented) (hg rfl)
  all_goals rfl

/-- From states that agree in the oscillator and in `CFG`, and in all of `STATUS` for `GETS`, a command does and answers the
same. -/
theorem exec_answerAlike (i : Instr) (h : AgreeOn P s s') (h0 : P 0) (hg : i = .gets → s'.status = s.status) :
    ∃ t t', exec i s = .next t ∧ exec i s' = .next t' ∧ AnswerAlike P s s' t t' := by
  have hc : configured s' = configured s := by rw [configured_eq_bit, configured_eq_bit, h.2 0 h0]
  by_cases hu : needsConfigured i = true ∧ configured s = false
  · obtain ⟨hi, hs⟩ := hu
    rw [exec_of_unconfigured hi hs, exec_of_unconfigured hi (hc.trans hs), ← raise_notConfigured, ← raise_notConfigured]
    exact ⟨_, _, rfl, rfl, raise_answerAlike h _⟩
  have hs : needsConfigured i = true → configured s = true := by simpa using hu
  have hs' : needsConfigured i = true → configured s' = true := fun hi => hc.trans (hs hi)
  have ⟨⟨hp, hd, hf, hr⟩, hbits⟩ := h
  by_cases hi : onlyReads i = true
  · exact ⟨_, _, exec_of_onlyReads hi hs, by rw [exec_of_onlyReads hi hs', readAnswer_congr h hg],
      respond_answerAlike _ h rfl rfl⟩
  cases i
  case nop | getf | getr | lookup | getp | getd | gets => exact absurd rfl hi
  case reserved => exact ⟨_, _, rfl, rfl, raise_answerAlike h .illegalCommand⟩
  case sample =>
    have hadv : advance s'.phase s'.deltaPhase = advance s.phase s.deltaPhase := by rw [hp, hd]
    have hx := exec_sample_of_configured (hs' rfl)
    rw [hadv, hp] at hx
    exact ⟨_, _, exec_sample_of_configured (hs rfl), hx, respond_answerAlike _ ⟨⟨rfl, hd, hf, hr⟩, hbits⟩ rfl rfl⟩
  case rstp =>
    exact ⟨_, _, exec_rstp_of_configured (hs rfl), exec_rstp_of_configured (hs' rfl),
      respond_answerAlike _ ⟨⟨rfl, hd, hf, hr⟩, hbits⟩ rfl rfl⟩
  case setf f =>
    cases hq : dphi f s.sampleRate with
    | error c =>
      exact ⟨_, _, exec_setf_of_error (hs rfl) hq, exec_setf_of_error (hs' rfl) (hr ▸ hq), raise_answerAlike h c⟩
    | ok d =>
      exact ⟨_, _, exec_setf_of_ok (hs rfl) hq, exec_setf_of_ok (hs' rfl) (hr ▸ hq),
        respond_answerAlike _ ⟨⟨hp, rfl, rfl, hr⟩, hbits⟩ rfl rfl⟩
  case setr r =>
    cases hq : dphi s.frequency r with
    | error c =>
      exact ⟨_, _, exec_setr_of_error (hs rfl) hq, exec_setr_of_error (hs' rfl) (hf ▸ hq), raise_answerAlike h c⟩
    | ok d =>
      exact ⟨_, _, exec_setr_of_ok (hs rfl) hq, exec_setr_of_ok (hs' rfl) (hf ▸ hq),
        respond_answerAlike _ ⟨⟨hp, rfl, hf, rfl⟩, hbits⟩ rfl rfl⟩
  case init f r =>
    cases hq : dphi f r with
    | error c => exact ⟨_, _, exec_init_of_error hq s, exec_init_of_error hq s', raise_answerAlike h c⟩
    | ok d =>
      refine ⟨_, _, exec_init_of_ok hq s, exec_init_of_ok hq s', respond_answerAlike _ ?_ rfl rfl⟩
      rw [setConfigured_eq, setConfigured_eq]
      exact agreeOn_or_status (P := P) (s := { s with frequency := f, sampleRate := r, deltaPhase := d, phase := 0 })
        (s' := { s' with frequency := f, sampleRate := r, deltaPhase := d, phase := 0 }) ⟨⟨rfl, rfl, rfl, rfl⟩, hbits⟩ _ _

end Alike

/-- Settles O54: the states agree in all five registers, so the command does and answers the same. -/
theorem noHiddenState : Obligations.NoHiddenState := by
  intro i s s' t ho hst h
  have hagree : AgreeOn (fun _ => True) s s' := ⟨ho, fun n _ => by rw [hst]⟩
  obtain ⟨u, t', hu, ht', ⟨ho', hbits⟩, r, hr, hr'⟩ := exec_answerAlike i hagree trivial fun _ => hst
  cases hu.symm.trans h
  exact ⟨t', r, ht', ho', BitVec.eq_of_getLsbD_eq fun n _ => hbits n trivial, hr, hr'⟩

/-- Settles O55: the states agree in `CFG`, which is all of `STATUS` that a command but `GETS` looks at;
`GETS` writes nothing. -/
theorem stickyBitsChangeNothing : Obligations.StickyBitsChangeNothing := by
  intro i s s' t ho hcfg h
  by_cases hg : i = .gets
  · subst hg
    cases (exec_gets s).symm.trans h
    exact ⟨_, _, _, exec_gets s', ho, hcfg, rfl, rfl, fun hne => absurd rfl hne⟩
  have hagree : AgreeOn (· = 0) s s' := ⟨ho, fun n hn => by rw [hn, hcfg]⟩
  obtain ⟨u, t', hu, ht', ⟨ho', hbits⟩, r, hr, hr'⟩ := exec_answerAlike i hagree rfl fun hi => absurd hi hg
  cases hu.symm.trans h
  exact ⟨t', r, r, ht', ho', hbits 0 rfl, hr, hr', fun _ => rfl⟩

/-! ## Several blocks -/

/-- A step of block `k` gives a system, changes the component `k` by one step of that block, and no other (R103). -/
theorem stepBlock_next (k : Nat) (bs : Blocks) : ∃ bs' : Blocks, stepBlock k bs = .next bs' ∧ bs'.length = bs.length ∧
    (∀ s, bs[k]? = some s → ∃ t, step s = .next t ∧ bs'[k]? = some t) ∧ ∀ j, j ≠ k → bs'[j]? = bs[j]? := by
  cases hk : bs[k]? with
  | none => exact ⟨bs, by simp only [stepBlock, hk], rfl, fun _ h => (nomatch h), fun _ _ => rfl⟩
  | some s =>
    obtain ⟨t, ht⟩ := step_is_next s
    refine ⟨bs.set k t, by simp only [stepBlock, hk, ht], List.length_set, fun s' h => ?_, fun j hj => ?_⟩
    · cases h
      obtain ⟨hlt, -⟩ := List.getElem?_eq_some_iff.mp hk
      exact ⟨t, ht, List.getElem?_set_self hlt⟩
    · exact List.getElem?_set_ne hj.symm

/-- Settles O56, by induction on the interleaving: a step of a block is one step of that block alone. -/
theorem blocksDoNotInteract : Obligations.BlocksDoNotInteract := by
  intro ks
  induction ks with
  | nil => exact fun bs => ⟨bs, rfl, rfl, fun k s hs => ⟨s, rfl, hs⟩⟩
  | cons k ks ih =>
    intro bs
    obtain ⟨bs₁, hstep, hlen₁, hown, hother⟩ := stepBlock_next k bs
    obtain ⟨bs', hrun, hlen, hblocks⟩ := ih bs₁
    refine ⟨bs', by simp only [runBlocks, hstep, hrun], hlen.trans hlen₁, fun j s hs => ?_⟩
    by_cases hj : j = k
    · subst hj
      obtain ⟨u, hu, hu₁⟩ := hown s hs
      rw [List.count_cons_self, run_succ_of_step hu]
      exact hblocks j u hu₁
    · rw [List.count_cons_of_ne (Ne.symm hj)]
      exact hblocks j s (by rw [hother j hj, hs])

end Sys2Proof.Proofs

/-! SUPPORT. Sequences of commands (spec/42_nco_engine.md sections 2 to 5 and 7, spec/70_reset_and_hazards.md R111). -/

namespace Sys2Proof.Proofs

open Sys2Proof.Machine Sys2Proof.Safety

/-! ## The command after -/

/-- Phase 0 is the index 0 of any table (R58). -/
theorem phaseIndex_zero (p : Params) : phaseIndex p 0 = 0 := by
  simp [phaseIndex]

/-- A sample at phase 0 is the pinned entry 0, and leaves the phase at the increment (R56, R77). -/
theorem exec_sample_at_zero {s : State} (hc : configured s = true) (hp : s.phase = 0) :
    exec .sample s = .next (respond 0 { s with phase := s.deltaPhase }) := by
  have hentry : memRead Config.params 0 = 0 := Config.params_valid.entry_zero
  have hadd : advance 0 s.deltaPhase = s.deltaPhase := BitVec.zero_add _
  rw [exec_sample_of_configured hc, hp, phaseIndex_zero, hentry, hadd]

theorem append_two {s t u : State} {r r' : Response} (h : Answered s t r) (h' : Answered t u r') :
    u.responses = s.responses ++ [r, r'] := by
  rw [h', h, List.append_assoc]
  rfl

/-- Settles O49: both commands leave a configured engine at phase 0. -/
theorem firstSampleIsZero : Obligations.FirstSampleIsZero := by
  refine ⟨fun f r d s hd => ?_, fun s hc => ?_⟩
  · exact ⟨_, _, exec_init_of_ok hd s, exec_sample_at_zero (configured_setConfigured _) rfl, append_two rfl rfl, rfl, rfl⟩
  · rw [← configured_eq_bit] at hc
    exact ⟨_, _, exec_rstp_of_configured hc, exec_sample_at_zero hc rfl, append_two rfl rfl, rfl, rfl⟩

/-- Settles O50: an accepted setter has written the increment and kept the phase when the sample runs. -/
theorem settersTakeEffectAtOnce : Obligations.SettersTakeEffectAtOnce := by
  intro x d s hc
  rw [← configured_eq_bit] at hc
  refine ⟨fun hd => ?_, fun hd => ?_⟩
  · exact ⟨_, _, exec_setf_of_ok hc hd, exec_sample_of_configured hc, rfl, append_two rfl rfl⟩
  · exact ⟨_, _, exec_setr_of_ok hc hd, exec_sample_of_configured hc, rfl, append_two rfl rfl⟩

end Sys2Proof.Proofs

/-! SUPPORT. A run of samples with reading commands between them (spec/42_nco_engine.md R76 to R78). -/

namespace Sys2Proof.Proofs

open Sys2Proof.Machine Sys2Proof.Safety

/-! ## The closed form of the state and of a sample -/

/-- The state after `n` samples and `answers` responses, with the inputs `rest` left. -/
def afterSamples (n : Nat) (rest : List HostInput) (answers : List Response) (s : State) : State :=
  { s with phase := s.phase + BitVec.ofNat 32 n * s.deltaPhase, inputs := rest, responses := s.responses ++ answers }

/-- The response of a `SAMPLE` that `n` others precede from `s` on. -/
def sampleNumber (n : Nat) (s : State) : Response :=
  okResponse (memRead Config.params (phaseIndex Config.params (s.phase + BitVec.ofNat 32 n * s.deltaPhase)))

/-- The increments of two runs add up. -/
theorem phase_add_add (p d : Word) (m n : Nat) :
    p + BitVec.ofNat 32 m * d + BitVec.ofNat 32 n * d = p + BitVec.ofNat 32 (m + n) * d := by
  rw [BitVec.ofNat_add, BitVec.add_mul, BitVec.add_assoc]

theorem afterSamples_afterSamples (m n : Nat) (l l' : List HostInput) (a a' : List Response) (s : State) :
    afterSamples n l' a' (afterSamples m l a s) = afterSamples (m + n) l' (a ++ a') s := by
  simp only [afterSamples, phase_add_add, List.append_assoc]

theorem sampleNumber_afterSamples (m n : Nat) (l : List HostInput) (a : List Response) (s : State) :
    sampleNumber n (afterSamples m l a s) = sampleNumber (m + n) s := by
  simp only [sampleNumber, afterSamples, phase_add_add]

/-! ## One word of the run -/

theorem decode_of_sample_opcode {cw : CommandWord} (h : opField cw = 0x2#4) : decode cw = .sample := by
  simp [decode, h]

theorem onlyReads_decode {cw : CommandWord} (h : opField cw ∈ [0x0#4, 0x6#4, 0x7#4, 0x8#4, 0x9#4, 0xA#4, 0xB#4]) :
    onlyReads (decode cw) = true := by
  simp only [List.mem_cons, List.not_mem_nil, or_false] at h
  rcases h with h | h | h | h | h | h | h <;> simp [decode, h, onlyReads]

/-- One word of the run: a `SAMPLE` adds the increment once and answers the entry at the phase, another word answers
only. -/
theorem step_run_word {s : State} {cw : CommandWord} {rest : List HostInput} (hc : configured s = true)
    (hin : s.inputs = .command cw :: rest)
    (hop : opField cw ∈ [0x0#4, 0x2#4, 0x6#4, 0x7#4, 0x8#4, 0x9#4, 0xA#4, 0xB#4]) :
    ∃ r, step s = .next (afterSamples (if opField cw == 0x2#4 then 1 else 0) rest [r] s) ∧
      (opField cw = 0x2#4 → r = sampleNumber 0 s) := by
  rw [step_of_command hin]
  by_cases h2 : opField cw = 0x2#4
  · refine ⟨sampleNumber 0 s, ?_, fun _ => rfl⟩
    rw [decode_of_sample_opcode h2, exec_sample_of_configured (s := consume rest s) hc]
    simp [h2, respond, emit, consume, afterSamples, sampleNumber, advance]
  · have hread : onlyReads (decode cw) = true := onlyReads_decode (by simpa [h2] using hop)
    refine ⟨okResponse (readAnswer (decode cw) (consume rest s)), ?_, fun h => absurd h h2⟩
    rw [exec_of_onlyReads (s := consume rest s) hread fun _ => hc]
    simp [h2, respond, emit, consume, afterSamples]

/-! ## The run -/

/-- The closed form, by induction on the words; what is left to run starts one word's samples later. -/
theorem run_samples (cws : List CommandWord) (rest : List HostInput) (s : State) (hc : configured s = true)
    (hin : s.inputs = cws.map .command ++ rest)
    (hops : ∀ cw ∈ cws, opField cw ∈ [0x0#4, 0x2#4, 0x6#4, 0x7#4, 0x8#4, 0x9#4, 0xA#4, 0xB#4]) :
    ∃ answers : List Response,
      core.run cws.length s = .next (afterSamples (cws.countP (opField · == 0x2#4)) rest answers s) ∧
      answers.length = cws.length ∧
      ∀ k (hk : k < cws.length), opField cws[k] = 0x2#4 →
        answers[k]? = some (sampleNumber ((cws.take k).countP (opField · == 0x2#4)) s) := by
  induction cws generalizing s with
  | nil =>
    refine ⟨[], ?_, rfl, fun k hk => absurd hk (Nat.not_lt_zero k)⟩
    simp [Host.Core.run, afterSamples, ← show s.inputs = rest from hin]
  | cons cw cws ih =>
    have hnext : s.inputs = .command cw :: (cws.map .command ++ rest) := hin
    obtain ⟨r, hstep, hr⟩ := step_run_word hc hnext (hops cw List.mem_cons_self)
    obtain ⟨answers, hrun, hlen, hsamples⟩ :=
      ih (afterSamples (if opField cw == 0x2#4 then 1 else 0) (cws.map .command ++ rest) [r] s) hc rfl
        fun c h => hops c (List.mem_cons_of_mem cw h)
    refine ⟨r :: answers, ?_, congrArg (· + 1) hlen, fun k hk h2 => ?_⟩
    · rw [List.length_cons, run_succ_of_step hstep, hrun, afterSamples_afterSamples, List.countP_cons, Nat.add_comm]
      rfl
    · cases k with
      | zero => exact congrArg some (hr h2)
      | succ k =>
        rw [List.getElem?_cons_succ, hsamples k (Nat.lt_of_succ_lt_succ hk) h2, sampleNumber_afterSamples,
          List.take_succ_cons, List.countP_cons, Nat.add_comm]

/-- Settles O51: `afterSamples` and `sampleNumber` are the closed forms of the state and of a sample. -/
theorem runOfSamplesClosedForm : Obligations.RunOfSamplesClosedForm := by
  intro cws rest s hc
  rw [← configured_eq_bit] at hc
  exact run_samples cws rest s hc

/-! ## The period and the first wrap -/

/-- After `n` additions the phase has moved by `n * d`, modulo `2^32`. -/
theorem toNat_iterate_advance (p d : Word) (n : Nat) :
    ((fun x => advance x d)^[n] p).toNat = (p.toNat + n * d.toNat) % 2 ^ 32 := by
  induction n with
  | zero => simp [Nat.mod_eq_of_lt p.isLt]
  | succ n ih =>
    rw [Function.iterate_succ_apply', advance, BitVec.toNat_add, ih, Nat.mod_add_mod, Nat.succ_mul, Nat.add_assoc]

theorem toNat_iterate_advance_zero (d : Word) (n : Nat) :
    ((fun x => advance x d)^[n] 0).toNat = n * d.toNat % 2 ^ 32 := by
  simpa using toNat_iterate_advance 0 d n

/-- The multiples of `d` that `m` divides are the multiples of `m / gcd(d, m)`. -/
theorem dvd_mul_iff_div_gcd_dvd {m : Nat} (hm : 0 < m) (d n : Nat) : m ∣ n * d ↔ m / Nat.gcd d m ∣ n := by
  rw [Nat.div_dvd_iff_dvd_mul (Nat.gcd_dvd_right d m) (Nat.gcd_pos_of_pos_right d hm), ← Nat.gcd_mul_right, Nat.dvd_gcd_iff,
    and_iff_left (Nat.dvd_mul_right m n), Nat.mul_comm]

/-- A phase has come round exactly where the distance is a multiple of `2^32`. -/
theorem iterate_advance_eq_self_iff (p d : Word) (n : Nat) :
    (fun x => advance x d)^[n] p = p ↔ 2 ^ 32 ∣ n * d.toNat := by
  have hp : p.toNat < 2 ^ 32 := p.isLt
  rw [← BitVec.toNat_inj, toNat_iterate_advance]
  omega

/-- Settles O52: the phase has moved by `n * d`, which passes `2^32` at the rounded-up quotient and not twice. -/
theorem phasePeriodAndFirstWrap : Obligations.PhasePeriodAndFirstWrap := by
  refine ⟨fun p d n _ => ?_, fun d hd => ?_⟩
  · rw [iterate_advance_eq_self_iff, dvd_mul_iff_div_gcd_dvd (Nat.two_pow_pos 32)]
  · have hpos : 0 < d.toNat := Nat.pos_of_ne_zero (BitVec.toNat_ne_iff_ne.mpr hd)
    have hlt : d.toNat < 2 ^ 32 := d.isLt
    refine ⟨fun m hm => ?_, ?_⟩
    · have hnext : (m + 1) * d.toNat ≤ 2 ^ 32 + d.toNat - 1 := (Nat.le_div_iff_mul_le hpos).mp hm
      rw [Nat.succ_mul] at hnext
      rw [toNat_iterate_advance_zero, Nat.mod_eq_of_lt (by omega)]
    · have hle : (2 ^ 32 + d.toNat - 1) / d.toNat * d.toNat ≤ 2 ^ 32 + d.toNat - 1 := Nat.div_mul_le_self _ _
      have hgt : 2 ^ 32 + d.toNat - 1 < ((2 ^ 32 + d.toNat - 1) / d.toNat + 1) * d.toNat :=
        (Nat.div_lt_iff_lt_mul hpos).mp (Nat.lt_succ_self _)
      rw [Nat.succ_mul] at hgt
      rw [toNat_iterate_advance_zero]
      omega

end Sys2Proof.Proofs

/-! SUPPORT. The laws of a successful increment (spec/41_phase_increment.md R70, R72). -/

namespace Sys2Proof.Proofs

open Sys2Proof.Machine Sys2Proof.Safety

/-- Settles O16: the range check in the operands' values (R70), both ways. -/
theorem acceptedOperandPairs : Obligations.AcceptedOperandPairs := by
  refine fun f r => ⟨fun ⟨d, h⟩ => ?_, fun ⟨hr, hf, h0, h1⟩ => ⟨_, dphi_of_val_in_range hr hf h0 h1⟩⟩
  obtain ⟨hf, hr, hq⟩ := exactQ_eq_of_dphi_ok h
  have hd : d.toNat < 2 ^ 32 := d.isLt
  have hneg : ¬ exactQ f r < 0 := by omega
  have hbig : ¬ 2 ^ 32 ≤ exactQ f r := by omega
  rw [exactQ_neg_iff hr] at hneg
  rw [two_pow_le_exactQ_iff hr] at hbig
  exact ⟨hr, hf, not_lt.mp hneg, not_le.mp hbig⟩

section Successful

variable {f r d : Word} (h : dphi f r = .ok d)
include h

theorem rate_pos_of_dphi_ok : 0 < val r := by
  obtain ⟨-, hr, -⟩ := exactQ_eq_of_dphi_ok h
  exact val_pos_of_positive hr

/-- The increment is the integer at the start of the unit interval that holds the exact quotient (R65). -/
theorem increment_eq_iff (n : Nat) :
    d.toNat = n ↔ (n : ℚ) ≤ val f * 2 ^ 32 / val r ∧ val f * 2 ^ 32 / val r < n + 1 := by
  obtain ⟨-, -, hq⟩ := exactQ_eq_of_dphi_ok h
  rw [← Nat.cast_inj (R := ℤ), ← hq, exactQ, Int.floor_eq_iff]
  push_cast
  rfl

theorem increment_eq_zero_iff : d = 0 ↔ 0 ≤ val f * 2 ^ 32 ∧ val f * 2 ^ 32 < val r := by
  have hr : 0 < val r := rate_pos_of_dphi_ok h
  have hnum : d = 0 ↔ d.toNat = 0 := BitVec.toNat_inj.symm
  rw [hnum, increment_eq_iff h 0, Nat.cast_zero, zero_add, le_div_iff₀ hr, zero_mul,
    div_lt_one hr]

/-- The increment does not fall as the exact quotient rises. -/
theorem increment_mono {f' r' d' : Word} (h' : dphi f' r' = .ok d')
    (hle : val f * 2 ^ 32 / val r ≤ val f' * 2 ^ 32 / val r') : d.toNat ≤ d'.toNat := by
  obtain ⟨-, -, hq⟩ := exactQ_eq_of_dphi_ok h
  obtain ⟨-, -, hq'⟩ := exactQ_eq_of_dphi_ok h'
  have hfloor : exactQ f r ≤ exactQ f' r' := Int.floor_mono hle
  omega

end Successful

/-- Settles O17: R72 (a) is the floor's two inequalities times the rate. -/
theorem incrementResolution : Obligations.IncrementResolution := by
  intro f r d h
  have hr : 0 < val r := rate_pos_of_dphi_ok h
  obtain ⟨hle, hlt⟩ := (increment_eq_iff h d.toNat).mp rfl
  rw [le_div_iff₀ hr] at hle
  rw [div_lt_iff₀ hr] at hlt
  refine ⟨?_, ?_, increment_eq_zero_iff h⟩
  · rwa [div_le_iff₀ (by norm_num)]
  · rwa [lt_div_iff₀ (by norm_num)]

/-- Settles O18: the exact quotient is monotone in the frequency and antitone in the rate, and the floor keeps that. -/
theorem incrementMonotoneInRatio : Obligations.IncrementMonotoneInRatio := by
  intro f r d f' r' d' h h'
  have hr : 0 < val r := rate_pos_of_dphi_ok h
  have hr' : 0 < val r' := rate_pos_of_dphi_ok h'
  obtain ⟨-, -, h0, -⟩ := (acceptedOperandPairs f r).mp ⟨d, h⟩
  refine ⟨fun he hle => ?_, fun he hle => ?_, fun he => ?_, fun he => ?_⟩
  · refine increment_mono h h' ?_
    rw [← he]
    gcongr
  · refine increment_mono h' h ?_
    rw [← he]
    gcongr
  · have hquot : val f * 2 ^ 32 / val r = val f' * 2 ^ 32 / val r' := by
      rw [mul_div_right_comm, mul_div_right_comm, he]
    exact BitVec.eq_of_toNat_eq (le_antisymm (increment_mono h h' hquot.le) (increment_mono h' h hquot.ge))
  · have hquot : val f * 2 ^ 32 / val r = 2 ^ 31 := by
      rw [he]
      field_simp
    refine BitVec.eq_of_toNat_eq ((increment_eq_iff h _).mpr ?_)
    rw [hquot]
    norm_num

end Sys2Proof.Proofs

/-! SUPPORT. The table's accuracy carried over to a sample (spec/40_sine_lut.md R54 to R58, spec/42_nco_engine.md R77). -/

namespace Sys2Proof.Proofs

open Sys2Proof.Machine Sys2Proof.Safety

/-- The phase in table steps is less than one step above its index. -/
theorem phase_sub_index_mem {B : Nat} (hB : B ≤ 32) (p : Nat) :
    0 ≤ (p : ℝ) * 2 ^ B / 2 ^ 32 - (p / 2 ^ (32 - B) : ℕ) ∧
      (p : ℝ) * 2 ^ B / 2 ^ 32 - (p / 2 ^ (32 - B) : ℕ) < 1 := by
  have hsteps : (p : ℝ) * 2 ^ B / 2 ^ 32 = p / (2 ^ (32 - B) : ℕ) := by
    rw [show (2 : ℝ) ^ 32 = 2 ^ (32 - B) * 2 ^ B by rw [← pow_add, Nat.sub_add_cancel hB]]
    push_cast
    exact mul_div_mul_right _ _ (by positivity)
  rw [hsteps, ← Nat.floor_div_eq_div (K := ℝ) p]
  have hle := Nat.floor_le (a := (p : ℝ) / (2 ^ (32 - B) : ℕ)) (by positivity)
  have hlt := Nat.lt_floor_add_one ((p : ℝ) / (2 ^ (32 - B) : ℕ))
  constructor <;> linarith

/-- The sine at the truncated phase is within one table step of the sine at the phase. -/
theorem abs_sin_index_sub_sin_phase_le {B : Nat} (hB : B ≤ 32) (p : Nat) :
    |Real.sin (2 * Real.pi * (p / 2 ^ (32 - B) : ℕ) / 2 ^ B) - Real.sin (2 * Real.pi * p / 2 ^ 32)| ≤
      2 * Real.pi / 2 ^ B := by
  obtain ⟨h0, h1⟩ := phase_sub_index_mem hB p
  set δ : ℝ := (p : ℝ) * 2 ^ B / 2 ^ 32 - (p / 2 ^ (32 - B) : ℕ) with hδ
  have hangle : 2 * Real.pi * (p / 2 ^ (32 - B) : ℕ) / 2 ^ B - 2 * Real.pi * p / 2 ^ 32 = -(2 * Real.pi / 2 ^ B * δ) := by
    rw [hδ]
    field_simp
    ring
  calc _ ≤ |2 * Real.pi * (p / 2 ^ (32 - B) : ℕ) / 2 ^ B - 2 * Real.pi * p / 2 ^ 32| := Real.abs_sin_sub_sin_le _ _
    _ = 2 * Real.pi / 2 ^ B * δ := by rw [hangle, abs_neg, abs_of_nonneg (by positivity)]
    _ ≤ 2 * Real.pi / 2 ^ B := mul_le_of_le_one_right (by positivity) h1.le

/-- Settles O53: the entry at the index is accurate (R55), and the index is the truncated phase (R58). -/
theorem samplesApproximateSine : Obligations.SamplesApproximateSine := by
  intro s hc
  rw [← configured_eq_bit] at hc
  obtain ⟨-, -, hindex, hlt, -⟩ := phaseIndexIsTopBits Config.params Config.params_valid.depth_legal s.phase
  obtain ⟨hfin, hacc⟩ := Config.params_valid.entries_accurate _ hlt
  have hstep := abs_sin_index_sub_sin_phase_le (bitDepth_le.trans (by decide)) s.phase.toNat
  rw [hindex] at hacc
  refine ⟨_, memRead Config.params (phaseIndex Config.params s.phase), exec_sample_of_configured hc, rfl, hfin, ?_, ?_⟩
  · rwa [memRead, hindex]
  · rw [memRead, hindex]
    exact (abs_sub_le _ _ _).trans (add_le_add hacc hstep)

end Sys2Proof.Proofs

/-! SUPPORT. Which numbers are binary32 values (spec/41_phase_increment.md R62). -/

namespace Sys2Proof.Proofs

open Sys2Proof.Machine

/-! ## Words assembled from a sign, an exponent and a significand -/

/-- The sign as the factor that R62 makes of it. -/
def signFactor (neg : Bool) : ℚ := if neg then -1 else 1

theorem abs_signFactor (neg : Bool) : |signFactor neg| = 1 := by
  cases neg <;> simp [signFactor]

theorem signFactor_mul_self (neg : Bool) : signFactor neg * signFactor neg = 1 := by
  cases neg <;> simp [signFactor]

theorem val_eq_signFactor (w : Word) : val w = signFactor (signBit w) * (significand w : ℚ) * 2 ^ exponent w := rfl

/-- The word with the sign `neg` and the magnitude bits `m`. -/
def wordOf (neg : Bool) (m : Nat) : Word := BitVec.ofNat 32 ((if neg then 2 ^ 31 else 0) + m)

section WordOf

variable {m : Nat} (hm : m < 2 ^ 31) (neg : Bool)
include hm

theorem toNat_wordOf : (wordOf neg m).toNat = (if neg then 2 ^ 31 else 0) + m := by
  rw [wordOf, BitVec.toNat_ofNat]
  exact Nat.mod_eq_of_lt (by split <;> omega)

theorem signBit_wordOf : signBit (wordOf neg m) = neg := by
  rw [signBit_eq_decide_le, toNat_wordOf hm]
  cases neg
  · simpa using hm
  · simp

theorem exponentField_wordOf : exponentField (wordOf neg m) = m / 2 ^ 23 := by
  rw [exponentField_eq_div_mod, toNat_wordOf hm]
  split <;> omega

theorem fractionField_wordOf : fractionField (wordOf neg m) = m % 2 ^ 23 := by
  rw [fractionField_eq_mod, toNat_wordOf hm]
  split <;> omega

end WordOf

/-- The words count through the finite values: with the exponent `n - 149` and a significand `M` below `2^24`, or `M = 2^24`
that carries into the next exponent, the magnitude bits are `n * 2^23 + M`. Only the least exponent has significands below
`2^23`. -/
theorem val_wordOf {n M : Nat} (hfin : n * 2 ^ 23 + M < 0x7F800000) (hM : M ≤ 2 ^ 24) (hnorm : n = 0 ∨ 2 ^ 23 ≤ M)
    (neg : Bool) : finite (wordOf neg (n * 2 ^ 23 + M)) = true ∧ signBit (wordOf neg (n * 2 ^ 23 + M)) = neg ∧
      val (wordOf neg (n * 2 ^ 23 + M)) = signFactor neg * M * 2 ^ ((n : ℤ) - 149) := by
  have hlt : n * 2 ^ 23 + M < 2 ^ 31 := hfin.trans (by norm_num)
  have hexp := exponentField_wordOf hlt neg
  have hfrac := fractionField_wordOf hlt neg
  refine ⟨(finite_iff _).mpr (by omega), signBit_wordOf hlt neg, ?_⟩
  rw [val_eq_signFactor, signBit_wordOf hlt, mul_assoc, mul_assoc]
  congr 1
  rcases lt_or_ge M (2 ^ 23) with h | h
  · have he : exponentField (wordOf neg (n * 2 ^ 23 + M)) = 0 := by omega
    have hf : fractionField (wordOf neg (n * 2 ^ 23 + M)) = M := by omega
    have hn : n = 0 := by omega
    rw [significand_of_exponentField_eq_zero he, exponent_of_exponentField_eq_zero he, hf, hn]
    rfl
  rcases hM.lt_or_eq with h' | rfl
  · have he : exponentField (wordOf neg (n * 2 ^ 23 + M)) = n + 1 := by omega
    have hf : 2 ^ 23 + fractionField (wordOf neg (n * 2 ^ 23 + M)) = M := by omega
    rw [significand_of_exponentField_ne_zero (by omega), exponent_of_exponentField_ne_zero (by omega), hf, he]
    congr 2
    push_cast
    ring
  · have he : exponentField (wordOf neg (n * 2 ^ 23 + 2 ^ 24)) = n + 2 := by omega
    have hf : fractionField (wordOf neg (n * 2 ^ 23 + 2 ^ 24)) = 0 := by omega
    have hE : ((n + 2 : ℕ) : ℤ) - 150 = ((n : ℤ) - 149) + 1 := by push_cast; ring
    rw [significand_of_exponentField_ne_zero (by omega), exponent_of_exponentField_ne_zero (by omega), hf, he, hE,
      zpow_add_one₀ two_ne_zero]
    push_cast
    ring

end Sys2Proof.Proofs

/-! SUPPORT. The tables of R57 (spec/40_sine_lut.md R54 to R57). -/

namespace Sys2Proof.Proofs

open Sys2Proof.Machine

/-! ## Tables of correctly rounded sines -/

/-- Every number with a significand up to `2^24` and an exponent in range is a binary32 value: a significand below `2^23` is
doubled until it is not, or until the exponent is the least. -/
theorem exists_val_eq {n M : Nat} (hn : n ≤ 252) (hM : M ≤ 2 ^ 24) (neg : Bool) :
    ∃ w, finite w = true ∧ val w = signFactor neg * M * 2 ^ ((n : ℤ) - 149) := by
  induction n generalizing M with
  | zero =>
    obtain ⟨hfin, -, hval⟩ := val_wordOf (n := 0) (by omega) hM (.inl rfl) neg
    exact ⟨_, hfin, hval⟩
  | succ n ih =>
    by_cases hnorm : 2 ^ 23 ≤ M
    · obtain ⟨hfin, -, hval⟩ := val_wordOf (n := n + 1) (by omega) hM (.inr hnorm) neg
      exact ⟨_, hfin, hval⟩
    · obtain ⟨w, hfin, hval⟩ := ih (M := 2 * M) (by omega) (by omega)
      have hexp : ((n + 1 : ℕ) : ℤ) - 149 = ((n : ℤ) - 149) + 1 := by push_cast; ring
      refine ⟨w, hfin, ?_⟩
      rw [hval, hexp, zpow_add_one₀ two_ne_zero]
      push_cast
      ring

/-- The multiples of `2^-24` between -1 and 1 are binary32 values. -/
theorem exists_val_eq_div {M : Nat} (hM : M ≤ 2 ^ 24) (neg : Bool) :
    ∃ w, finite w = true ∧ val w = signFactor neg * (M / 2 ^ 24) := by
  obtain ⟨w, hfin, hval⟩ := exists_val_eq (n := 125) (by norm_num) hM neg
  have hscale : (2 : ℚ) ^ (((125 : ℕ) : ℤ) - 149) = 1 / 2 ^ 24 := by norm_num
  exact ⟨w, hfin, by rw [hval, hscale, mul_assoc, mul_one_div]⟩

/-- Rounding down to a multiple of `2^-24`. -/
theorem exists_div_near {a : ℝ} (h0 : 0 ≤ a) (h1 : a ≤ 1) :
    ∃ M : Nat, M ≤ 2 ^ 24 ∧ |(M : ℝ) / 2 ^ 24 - a| ≤ 1 / 2 ^ 24 := by
  have hlo : (⌊a * 2 ^ 24⌋₊ : ℝ) ≤ a * 2 ^ 24 := Nat.floor_le (by positivity)
  have hhi : a * 2 ^ 24 < ⌊a * 2 ^ 24⌋₊ + 1 := Nat.lt_floor_add_one _
  refine ⟨⌊a * 2 ^ 24⌋₊, Nat.floor_le_of_le ?_, ?_⟩
  · push_cast
    linarith
  · have hle : (⌊a * 2 ^ 24⌋₊ : ℝ) / 2 ^ 24 ≤ a := by rwa [div_le_iff₀ (by norm_num)]
    have hlt : a < (⌊a * 2 ^ 24⌋₊ + 1 : ℝ) / 2 ^ 24 := by rwa [lt_div_iff₀ (by norm_num)]
    rw [add_div] at hlt
    rw [abs_of_nonpos (by linarith)]
    linarith

/-- Some binary32 value is as near to any number between -1 and 1 as R55 asks. -/
theorem exists_val_near {x : ℝ} (hx : |x| ≤ 1) : ∃ w, finite w = true ∧ |((val w : ℚ) : ℝ) - x| ≤ 1 / 2 ^ 24 := by
  obtain ⟨M, hM, hnear⟩ := exists_div_near (abs_nonneg x) hx
  obtain ⟨w, hfin, hval⟩ := exists_val_eq_div hM (decide (x < 0))
  refine ⟨w, hfin, ?_⟩
  rw [hval, signFactor]
  by_cases h : x < 0
  · rw [abs_of_neg h] at hnear
    have hflip : ((-1 * (M / 2 ^ 24) : ℚ) : ℝ) - x = -((M : ℝ) / 2 ^ 24 - -x) := by push_cast; ring
    rwa [decide_eq_true h, if_pos rfl, hflip, abs_neg]
  · rw [abs_of_nonneg (not_lt.mp h)] at hnear
    rw [decide_eq_false h, if_neg Bool.false_ne_true, one_mul]
    push_cast
    exact hnear

/-- A nearest value is at least as near as any other. -/
theorem nearestEntry_accurate {x : ℝ} {w : Word} (hx : |x| ≤ 1) (h : NearestEntry x w) :
    finite w = true ∧ |((val w : ℚ) : ℝ) - x| ≤ 1 / 2 ^ 24 := by
  obtain ⟨hfin, hnear, -⟩ := h
  obtain ⟨v, hv, hle⟩ := exists_val_near hx
  exact ⟨hfin, (hnear v hv).trans hle⟩

/-- Settles O23: some value is within the bound of any sine, and the sine of entry 0 is exactly 0. -/
theorem canonicalTablesAreAdmissible : Obligations.CanonicalTablesAreAdmissible := by
  intro p hp hcan
  refine ⟨hp, fun k hk => nearestEntry_accurate (Real.abs_sin_le_one _) (hcan k hk), ?_⟩
  obtain ⟨-, -, -, hzero, -⟩ := hcan 0 (Nat.two_pow_pos _)
  exact hzero (by simp)

/-! ## The word of the negated value -/

/-- The other sign, the same magnitude. -/
def negWord (w : Word) : Word := w ^^^ 0x80000000#32

theorem signBit_negWord (w : Word) : signBit (negWord w) = !signBit w := by
  simp [signBit, negWord]

theorem exponentField_negWord (w : Word) : exponentField (negWord w) = exponentField w := by
  simp [exponentField, negWord, BitVec.extractLsb'_xor]

theorem fractionField_negWord (w : Word) : fractionField (negWord w) = fractionField w := by
  simp [fractionField, negWord, BitVec.extractLsb'_xor]

theorem finite_negWord (w : Word) : finite (negWord w) = finite w := by
  rw [finite, exponentField_negWord, finite]

theorem val_negWord (w : Word) : val (negWord w) = -val w := by
  have hM : significand (negWord w) = significand w := by
    simp only [significand, exponentField_negWord, fractionField_negWord]
  have hE : exponent (negWord w) = exponent w := by simp only [exponent, exponentField_negWord]
  rw [val_of_parts (signBit_negWord w) hM hE, val]
  cases signBit w <;> simp

/-! ## Exact entries -/

theorem val_nonneg {w : Word} (h : signBit w = false) : 0 ≤ val w := by
  rw [val_of_parts h rfl rfl]
  simp only [Bool.false_eq_true, if_false]
  positivity

/-- A word is nearest to its own value. -/
theorem nearestEntry_of_val_eq {x : ℝ} {w : Word} (hfin : finite w = true) (hval : ((val w : ℚ) : ℝ) = x)
    (hzero : x = 0 → w = 0x00000000#32) : NearestEntry x w := by
  subst hval
  refine ⟨hfin, fun v _ => by simp, fun v _ hne heq => ?_, hzero, fun h => ?_, fun h => ?_⟩
  · rw [sub_self, abs_zero, eq_comm, abs_eq_zero, sub_eq_zero, Rat.cast_inj] at heq
    exact absurd heq hne
  · by_contra hs
    exact (val_nonneg (Bool.eq_false_iff.mpr hs)).not_gt (by exact_mod_cast h)
  · obtain ⟨hs, -⟩ := (val_pos_iff w).mp (by exact_mod_cast h)
    exact hs

theorem val_zero_word : val 0x00000000#32 = 0 := by
  rw [val_of_parts (s := false) (M := 0) (E := -149) (by decide) (by decide) (by decide)]
  norm_num

theorem val_one_word : val 0x3F800000#32 = 1 := by
  rw [val_of_parts (s := false) (M := 8388608) (E := -23) (by decide) (by decide) (by decide)]
  norm_num

theorem val_neg_one_word : val 0xBF800000#32 = -1 := by
  rw [← val_one_word]
  exact val_negWord 0x3F800000#32

/-- Settles O25: the four sines are 0, 1, 0 and -1, and the entries are exactly these. -/
theorem printedTableIsCanonical : Obligations.PrintedTableIsCanonical := by
  have hz : NearestEntry 0 0x00000000#32 := nearestEntry_of_val_eq (by decide) (by simp [val_zero_word]) fun _ => rfl
  have ho : NearestEntry 1 0x3F800000#32 :=
    nearestEntry_of_val_eq (by decide) (by simp [val_one_word]) fun h => absurd h one_ne_zero
  have hn : NearestEntry (-1) 0xBF800000#32 :=
    nearestEntry_of_val_eq (by decide) (by simp [val_neg_one_word]) fun h => absurd h (by norm_num)
  intro k hk
  have hk4 : k < 4 := hk
  have hangle : 2 * Real.pi * k / 2 ^ (canonicalParams 2).bitDepth = k * (Real.pi / 2) := by
    simp only [canonicalParams]
    ring
  rw [hangle]
  interval_cases k
  · rwa [Nat.cast_zero, zero_mul, Real.sin_zero]
  · rwa [Nat.cast_one, one_mul, Real.sin_pi_div_two]
  · rwa [Nat.cast_ofNat, mul_div_cancel₀ _ two_ne_zero, Real.sin_pi]
  · have hthird : ((3 : ℕ) : ℝ) * (Real.pi / 2) = Real.pi / 2 + Real.pi := by push_cast; ring
    rwa [hthird, Real.sin_add_pi, Real.sin_pi_div_two]

/-! ## The symmetries of the sine, in the entries -/

section Symmetry

variable {B k : Nat} {w : Word}

/-- The entries of a table are entries of a finer one. -/
theorem entryAccurate_of_finer {c : Nat} (h : EntryAccurate (B + c) (k * 2 ^ c) w) : EntryAccurate B k w := by
  have hangle : 2 * Real.pi * (k * 2 ^ c : ℕ) / 2 ^ (B + c) = 2 * Real.pi * k / 2 ^ B := by
    push_cast
    field_simp
    ring
  rwa [EntryAccurate, hangle] at h

/-- `sin (pi - x) = sin x`. -/
theorem entryAccurate_reflect (hk : k ≤ 2 ^ B) (h : EntryAccurate (B + 1) k w) : EntryAccurate (B + 1) (2 ^ B - k) w := by
  have hangle : 2 * Real.pi * (2 ^ B - k : ℕ) / 2 ^ (B + 1) = Real.pi - 2 * Real.pi * k / 2 ^ (B + 1) := by
    push_cast [hk]
    field_simp
    ring
  rwa [EntryAccurate, hangle, Real.sin_pi_sub]

/-- `sin (x + pi) = -sin x`. -/
theorem entryAccurate_opposite (h : EntryAccurate (B + 1) k w) : EntryAccurate (B + 1) (k + 2 ^ B) (negWord w) := by
  obtain ⟨hfin, hacc⟩ := h
  have hangle : 2 * Real.pi * (k + 2 ^ B : ℕ) / 2 ^ (B + 1) = 2 * Real.pi * k / 2 ^ (B + 1) + Real.pi := by
    push_cast
    field_simp
    ring
  refine ⟨(finite_negWord w).trans hfin, ?_⟩
  rwa [hangle, Real.sin_add_pi, val_negWord, Rat.cast_neg, ← neg_sub', abs_neg]

end Symmetry

/-! ## The printed table for `B = 4` -/

theorem sqrt_two_bounds : 1.41421356 < √(2 : ℝ) ∧ √(2 : ℝ) < 1.41421357 :=
  ⟨Real.lt_sqrt_of_sq_lt (by norm_num), (Real.sqrt_lt' (by norm_num)).mpr (by norm_num)⟩

theorem sqrt_two_sub_sqrt_two_bounds : 0.76536685 < √(2 - √(2 : ℝ)) ∧ √(2 - √(2 : ℝ)) < 0.76536687 := by
  obtain ⟨hlo, hhi⟩ := sqrt_two_bounds
  exact ⟨Real.lt_sqrt_of_sq_lt (by linarith), (Real.sqrt_lt' (by norm_num)).mpr (by linarith)⟩

theorem sqrt_two_add_sqrt_two_bounds : 1.84775906 < √(2 + √(2 : ℝ)) ∧ √(2 + √(2 : ℝ)) < 1.84775907 := by
  obtain ⟨hlo, hhi⟩ := sqrt_two_bounds
  exact ⟨Real.lt_sqrt_of_sq_lt (by linarith), (Real.sqrt_lt' (by norm_num)).mpr (by linarith)⟩

theorem sin_three_mul_pi_div_eight : Real.sin (3 * (Real.pi / 8)) = √(2 + √2) / 2 := by
  rw [show 3 * (Real.pi / 8) = Real.pi / 2 - Real.pi / 8 by ring, Real.sin_pi_div_two_sub, Real.cos_pi_div_eight]

/-- A word of positive sign within `2^-24` of `x`, from its significand `M` and its exponent `E`. -/
theorem abs_val_sub_le {w : Word} {x : ℝ} (M : Nat) (E : ℤ) (hs : signBit w = false) (hM : significand w = M)
    (hE : exponent w = E) (hlo : x - 1 / 2 ^ 24 ≤ M * (2 : ℝ) ^ E) (hhi : M * (2 : ℝ) ^ E ≤ x + 1 / 2 ^ 24) :
    |((val w : ℚ) : ℝ) - x| ≤ 1 / 2 ^ 24 := by
  have hval : ((val w : ℚ) : ℝ) = M * (2 : ℝ) ^ E := by
    rw [val_of_parts hs hM hE, if_neg Bool.false_ne_true, one_mul]
    push_cast
    rfl
  rw [hval, abs_le]
  constructor <;> linarith

/-- The first quarter turn: the sines of the multiples of `pi / 8`. -/
theorem first_quarter_accurate {k : Nat} (hk : k ≤ 4) : EntryAccurate 4 k ((canonicalParams 4).rom k) := by
  have hangle : 2 * Real.pi * k / 2 ^ 4 = k * (Real.pi / 8) := by ring
  rw [EntryAccurate, hangle]
  interval_cases k
  · rw [Nat.cast_zero, zero_mul, Real.sin_zero]
    exact ⟨by decide, abs_val_sub_le 0 (-149) (by decide) (by decide) (by decide) (by norm_num) (by norm_num)⟩
  · obtain ⟨hlo, hhi⟩ := sqrt_two_sub_sqrt_two_bounds
    rw [Nat.cast_one, one_mul, Real.sin_pi_div_eight]
    exact ⟨by decide, abs_val_sub_le 12840725 (-25) (by decide) (by decide) (by decide)
      (by norm_num; linarith) (by norm_num; linarith)⟩
  · obtain ⟨hlo, hhi⟩ := sqrt_two_bounds
    rw [show ((2 : ℕ) : ℝ) * (Real.pi / 8) = Real.pi / 4 by push_cast; ring, Real.sin_pi_div_four]
    exact ⟨by decide, abs_val_sub_le 11863283 (-24) (by decide) (by decide) (by decide)
      (by norm_num; linarith) (by norm_num; linarith)⟩
  · obtain ⟨hlo, hhi⟩ := sqrt_two_add_sqrt_two_bounds
    rw [Nat.cast_ofNat, sin_three_mul_pi_div_eight]
    exact ⟨by decide, abs_val_sub_le 15500126 (-24) (by decide) (by decide) (by decide)
      (by norm_num; linarith) (by norm_num; linarith)⟩
  · rw [show ((4 : ℕ) : ℝ) * (Real.pi / 8) = Real.pi / 2 by push_cast; ring, Real.sin_pi_div_two]
    exact ⟨by decide, abs_val_sub_le 8388608 (-23) (by decide) (by decide) (by decide) (by norm_num) (by norm_num)⟩

theorem first_half_accurate {k : Nat} (hk : k ≤ 8) : EntryAccurate 4 k ((canonicalParams 4).rom k) := by
  have hmirror : ∀ j ≤ 4, (canonicalParams 4).rom (2 ^ 3 - j) = (canonicalParams 4).rom j := by decide
  rcases le_or_gt k 4 with h | h
  · exact first_quarter_accurate h
  · obtain ⟨j, hj, rfl⟩ : ∃ j ≤ 4, k = 2 ^ 3 - j := ⟨8 - k, by omega, by omega⟩
    rw [hmirror j hj]
    exact entryAccurate_reflect (by omega) (first_quarter_accurate hj)

theorem canonicalParams_four_valid : (canonicalParams 4).Valid := by
  have hopposite : ∀ j < 8, 0 < j → (canonicalParams 4).rom (j + 2 ^ 3) = negWord ((canonicalParams 4).rom j) := by decide
  refine ⟨by decide, fun k hk => ?_, by decide⟩
  have hk16 : k < 16 := hk
  rcases le_or_gt k 8 with h | h
  · exact first_half_accurate h
  · obtain ⟨j, hj, hpos, rfl⟩ : ∃ j < 8, 0 < j ∧ k = j + 2 ^ 3 := ⟨k - 8, by omega, by omega, by omega⟩
    rw [hopposite j hj hpos]
    exact entryAccurate_opposite (first_half_accurate hj.le)

/-- A printed table whose entries are entries of the table for `B = 4` is valid, as that one is. -/
theorem canonicalParams_valid_of_finer {B c : Nat} (hc : B + c = 4) (hB : (canonicalParams B).depthLegal = true)
    (hsub : ∀ k < 2 ^ B, (canonicalParams B).rom k = (canonicalParams 4).rom (k * 2 ^ c)) : (canonicalParams B).Valid := by
  refine ⟨hB, fun k hk => ?_, ?_⟩
  · have hfine : k * 2 ^ c < 2 ^ 4 := by
      rw [← hc, pow_add]
      exact Nat.mul_lt_mul_of_pos_right hk (Nat.two_pow_pos c)
    have hacc := canonicalParams_four_valid.entries_accurate _ hfine
    rw [hsub k hk]
    exact entryAccurate_of_finer (c := c) (hc ▸ hacc)
  · rw [hsub 0 (Nat.two_pow_pos B), Nat.zero_mul]
    exact canonicalParams_four_valid.entry_zero

/-- Settles O24: the coarser printed tables are parts of the one for `B = 4`, whose entries follow from its first
quarter. -/
theorem printedTablesAreAdmissible : Obligations.PrintedTablesAreAdmissible :=
  ⟨canonicalParams_valid_of_finer (c := 3) rfl (by decide) (by decide), canonicalParams_two_valid,
    canonicalParams_valid_of_finer (c := 1) rfl (by decide) (by decide), canonicalParams_four_valid⟩

end Sys2Proof.Proofs

/-! SUPPORT. Decimal operands and lines of a listing (spec/30_encoding.md R50, R51). -/

namespace Sys2Proof.Proofs

open Sys2Proof.Machine

/-- Settles O57: the five lines are fixed, and assembling them is computed. -/
theorem listingsAssemble : Obligations.ListingsAssemble := by
  unfold Obligations.ListingsAssemble
  decide

/-! ## Rounding to an integer, ties to even -/

/-- `M` is an integer nearest to `y`, the even one of two. -/
def RoundsTo (M : Nat) (y : ℚ) : Prop := |(M : ℚ) - y| ≤ 1 / 2 ∧ (|(M : ℚ) - y| = 1 / 2 → M % 2 = 0)

theorem roundsTo_zero : RoundsTo 0 0 := by norm_num [RoundsTo]

theorem roundHalfEven_roundsTo (n : Nat) {d : Nat} (hd : 0 < d) : RoundsTo (roundHalfEven n d) (n / d) := by
  have hsplit : (n : ℚ) / d = (n / d : ℕ) + (n % d : ℕ) / d := by
    have hn : (d : ℚ) * (n / d : ℕ) + (n % d : ℕ) = n := by exact_mod_cast Nat.div_add_mod n d
    rw [← hn]
    field_simp
  have hdQ : (0 : ℚ) < d := by exact_mod_cast hd
  have hlt : ((n % d : ℕ) : ℚ) / d < 1 := (div_lt_one hdQ).mpr (by exact_mod_cast Nat.mod_lt n hd)
  have h0 : (0 : ℚ) ≤ ((n % d : ℕ) : ℚ) / d := by positivity
  have hhalf : ((n % d : ℕ) : ℚ) / d ≤ 1 / 2 ↔ 2 * (n % d) ≤ d := by
    rw [div_le_div_iff₀ hdQ two_pos]
    norm_cast
    omega
  have heq : ((n % d : ℕ) : ℚ) / d = 1 / 2 ↔ 2 * (n % d) = d := by
    rw [div_eq_div_iff hdQ.ne' two_ne_zero]
    norm_cast
    omega
  rw [hsplit, RoundsTo, roundHalfEven]
  set ρ : ℚ := ((n % d : ℕ) : ℚ) / d
  split
  case isTrue hup =>
    have hρ : 1 / 2 ≤ ρ := by
      rcases hup with h | ⟨h, -⟩
      · exact (lt_of_not_ge (mt hhalf.mp (by omega))).le
      · exact (heq.mpr h).ge
    rw [Nat.cast_add, Nat.cast_one, add_sub_add_left_eq_sub, abs_of_pos (by linarith)]
    refine ⟨by linarith, fun he => ?_⟩
    have htie : 2 * (n % d) = d := heq.mp (by linarith)
    omega
  case isFalse hdown =>
    have hρ : ρ ≤ 1 / 2 := hhalf.mpr (by omega)
    rw [sub_add_cancel_left, abs_neg, abs_of_nonneg h0]
    refine ⟨hρ, fun he => ?_⟩
    have htie : 2 * (n % d) = d := heq.mp he
    omega

/-- Any other integer is at least as far, and as far only in a tie. -/
theorem RoundsTo.nearest {M : Nat} {y : ℚ} (h : RoundsTo M y) (N : ℤ) :
    |(M : ℚ) - y| ≤ |(N : ℚ) - y| ∧ (|(N : ℚ) - y| = |(M : ℚ) - y| → (N : ℚ) = M ∨ M % 2 = 0) := by
  obtain ⟨hle, htie⟩ := h
  by_cases hN : N = M
  · subst hN
    exact ⟨le_rfl, fun _ => .inl rfl⟩
  have hapart : (1 : ℚ) ≤ |(N : ℚ) - M| := by exact_mod_cast Int.one_le_abs (sub_ne_zero.mpr hN)
  have htri : |(N : ℚ) - M| ≤ |(N : ℚ) - y| + |(M : ℚ) - y| := by
    rw [abs_sub_comm (M : ℚ) y]
    exact abs_sub_le _ _ _
  exact ⟨by linarith, fun he => .inr (htie (by linarith))⟩

/-! ## The last place of a binary32 (`lastPlace`) -/

theorem atLeastPow_iff (num : Nat) {den : Nat} (hden : den ≠ 0) (e : ℤ) :
    atLeastPow num den e = true ↔ (2 : ℚ) ^ e ≤ num / den := by
  have hdpos : (0 : ℚ) < den := by positivity
  rw [atLeastPow, decide_eq_true_eq, two_zpow_eq_div, div_le_div_iff₀ (by positivity) hdpos, mul_comm (2 ^ e.toNat : ℚ)]
  exact_mod_cast Iff.rfl

section LastPlace

variable {num den : Nat} (hnum : num ≠ 0) (hden : den ≠ 0)
include hnum hden

/-- The leading bits' places give the quotient's to within one. -/
theorem quotient_bounds_of_log2 :
    (2 : ℚ) ^ ((Nat.log2 num : ℤ) - Nat.log2 den - 1) ≤ num / den ∧
      (num : ℚ) / den < 2 ^ ((Nat.log2 num : ℤ) - Nat.log2 den + 1) := by
  have hn0 : (2 : ℚ) ^ Nat.log2 num ≤ num := by exact_mod_cast Nat.log2_self_le hnum
  have hn1 : (num : ℚ) < 2 ^ (Nat.log2 num + 1) := by exact_mod_cast Nat.lt_log2_self
  have hd0 : (2 : ℚ) ^ Nat.log2 den ≤ den := by exact_mod_cast Nat.log2_self_le hden
  have hd1 : (den : ℚ) < 2 ^ (Nat.log2 den + 1) := by exact_mod_cast Nat.lt_log2_self
  have hdiv (a b : ℕ) : (2 : ℚ) ^ a / 2 ^ b = 2 ^ ((a : ℤ) - b) := by
    rw [zpow_sub₀ two_ne_zero, zpow_natCast, zpow_natCast]
  constructor
  · calc (2 : ℚ) ^ ((Nat.log2 num : ℤ) - Nat.log2 den - 1) = 2 ^ Nat.log2 num / 2 ^ (Nat.log2 den + 1) := by
          rw [hdiv, Nat.cast_succ, sub_sub]
      _ ≤ num / den := div_le_div₀ (by positivity) hn0 (by positivity) hd1.le
  · calc (num : ℚ) / den < 2 ^ (Nat.log2 num + 1) / 2 ^ Nat.log2 den :=
          div_lt_div₀ hn1 hd0 (by positivity) (by positivity)
      _ = 2 ^ ((Nat.log2 num : ℤ) - Nat.log2 den + 1) := by rw [hdiv, Nat.cast_succ, sub_add_eq_add_sub]

/-- The last place is 23 below the quotient's leading bit `k`, or the subnormals'. -/
theorem lastPlace_eq_max : ∃ k : ℤ, lastPlace num den = max (k - 23) (-149) ∧
    (2 : ℚ) ^ k ≤ num / den ∧ (num : ℚ) / den < 2 ^ (k + 1) := by
  obtain ⟨hlo, hhi⟩ := quotient_bounds_of_log2 hnum hden
  have hle := atLeastPow_iff num hden ((Nat.log2 num : ℤ) - Nat.log2 den)
  refine ⟨_, rfl, ?_⟩
  split
  case isTrue h => exact ⟨hle.mp h, hhi⟩
  case isFalse h =>
    rw [sub_add_cancel]
    exact ⟨hlo, lt_of_not_ge (mt hle.mpr h)⟩

/-- The quotient has at most 24 bits down to the last place, and 24 unless that is the subnormals'. -/
theorem lastPlace_spec : -149 ≤ lastPlace num den ∧ (num : ℚ) / den / 2 ^ lastPlace num den < 2 ^ 24 ∧
    (lastPlace num den = -149 ∨ 2 ^ 23 ≤ (num : ℚ) / den / 2 ^ lastPlace num den) := by
  obtain ⟨k, he, hlo, hhi⟩ := lastPlace_eq_max hnum hden
  set e : ℤ := lastPlace num den
  have hpow : (0 : ℚ) < 2 ^ e := zpow_pos two_pos e
  refine ⟨by omega, ?_, ?_⟩
  · rw [div_lt_iff₀ hpow]
    calc (num : ℚ) / den < 2 ^ (k + 1) := hhi
      _ ≤ 2 ^ (24 + e) := zpow_le_zpow_right₀ one_le_two (by omega)
      _ = 2 ^ 24 * 2 ^ e := by rw [zpow_add₀ two_ne_zero]; norm_cast
  · by_cases hsub : e = -149
    · exact .inl hsub
    · right
      rw [le_div_iff₀ hpow]
      calc (2 : ℚ) ^ 23 * 2 ^ e = 2 ^ (23 + e) := by rw [zpow_add₀ two_ne_zero]; norm_cast
        _ = 2 ^ k := by congr 1; omega
        _ ≤ num / den := hlo

end LastPlace

/-! ## The nearest binary32 -/

/-- The magnitude bits `m` are those of `q` rounded to the place `2^(n - 149)`, the least place that keeps 24 bits of it. -/
def RoundedBits (q : ℚ) (m : Nat) : Prop :=
  ∃ n M : Nat, m = n * 2 ^ 23 + M ∧ m < 0x7F800000 ∧ M ≤ 2 ^ 24 ∧ RoundsTo M (q / 2 ^ ((n : ℤ) - 149)) ∧
    (n = 0 ∨ (2 ^ 23 ≤ M ∧ 2 ^ 23 ≤ q / 2 ^ ((n : ℤ) - 149)))

/-- Rounding does not cross an integer. -/
theorem RoundsTo.le_of_lt {M K : Nat} {y : ℚ} (h : RoundsTo M y) (hy : y < K) : M ≤ K := by
  obtain ⟨hle, -⟩ := h
  have hM : (M : ℚ) < K + 1 := by linarith [(abs_le.mp hle).2]
  exact Nat.lt_succ_iff.mp (by exact_mod_cast hM)

theorem RoundsTo.ge_of_ge {M K : Nat} {y : ℚ} (h : RoundsTo M y) (hy : (K : ℚ) ≤ y) : K ≤ M := by
  obtain ⟨hle, -⟩ := h
  have hM : (K : ℚ) < M + 1 := by linarith [(abs_le.mp hle).1]
  exact Nat.lt_succ_iff.mp (by exact_mod_cast hM)

theorem nearestMagnitude_roundedBits {num den m : Nat} (hden : den ≠ 0) (h : nearestMagnitude num den = some m) :
    RoundedBits (num / den) m := by
  by_cases h0 : num = 0
  · simp only [nearestMagnitude, h0, if_true, Option.some.injEq] at h
    exact ⟨0, 0, h.symm, by omega, by omega, by simpa [h0] using roundsTo_zero, .inl rfl⟩
  simp only [nearestMagnitude, h0, if_false, Option.ite_none_right_eq_some, Option.some.injEq] at h
  obtain ⟨hfin, rfl⟩ := h
  obtain ⟨hmin, hlt, hnorm⟩ := lastPlace_spec h0 hden
  set e : ℤ := lastPlace num den
  have hplace : (((e + 149).toNat : ℕ) : ℤ) - 149 = e := by omega
  have hy : ((num * 2 ^ (-e).toNat : ℕ) : ℚ) / (den * 2 ^ e.toNat : ℕ) = num / den / 2 ^ e := by
    rw [two_zpow_eq_div]
    push_cast
    field_simp
  have hround := roundHalfEven_roundsTo (num * 2 ^ (-e).toNat) (d := den * 2 ^ e.toNat) (by positivity)
  rw [hy] at hround
  refine ⟨(e + 149).toNat, _, rfl, hfin, hround.le_of_lt (by exact_mod_cast hlt), by rwa [hplace], ?_⟩
  rw [hplace]
  exact hnorm.imp (fun hs => by omega) fun hge => ⟨hround.ge_of_ge (by exact_mod_cast hge), hge⟩

theorem abs_val (w : Word) : |val w| = significand w * 2 ^ exponent w := by
  have hpow : (0 : ℚ) < 2 ^ exponent w := zpow_pos two_pos _
  rw [val_eq_signFactor, abs_mul, abs_mul, abs_signFactor, one_mul, abs_of_pos hpow, Nat.abs_cast]

/-- In units of `2^(n - 149)` a finite value is an integer, or is smaller than any value with 24 bits there. -/
theorem val_integer_or_small (v : Word) (n : Nat) :
    (∃ N : ℤ, val v = N * 2 ^ ((n : ℤ) - 149)) ∨ (n ≠ 0 ∧ |val v| < 2 ^ 23 * 2 ^ ((n : ℤ) - 149)) := by
  rcases le_or_gt ((n : ℤ) - 149) (exponent v) with h | h
  · left
    obtain ⟨j, hj⟩ := Int.eq_ofNat_of_zero_le (sub_nonneg.mpr h)
    have hE : exponent v = j + ((n : ℤ) - 149) := by omega
    refine ⟨(if signBit v then -1 else 1) * significand v * 2 ^ j, ?_⟩
    rw [val_eq_signFactor, hE, zpow_add₀ two_ne_zero, zpow_natCast, signFactor]
    push_cast
    ring
  · right
    have hE : -149 ≤ exponent v := neg_149_le_exponent v
    refine ⟨by omega, ?_⟩
    have hM : (significand v : ℚ) < 2 ^ 24 := by exact_mod_cast significand_lt v
    calc |val v| = significand v * 2 ^ exponent v := abs_val v
      _ < 2 ^ 24 * 2 ^ exponent v := mul_lt_mul_of_pos_right hM (zpow_pos two_pos _)
      _ ≤ 2 ^ 24 * 2 ^ ((n : ℤ) - 150) := by gcongr <;> [norm_num; omega]
      _ = 2 ^ 23 * 2 ^ ((n : ℤ) - 149) := by
        rw [show (n : ℤ) - 149 = (n : ℤ) - 150 + 1 by ring, zpow_add_one₀ two_ne_zero]
        ring

/-- The same of a value counted in the direction of the sign `neg`. -/
theorem exists_units (v : Word) (n : Nat) (neg : Bool) : ∃ a : ℚ, val v = signFactor neg * a * 2 ^ ((n : ℤ) - 149) ∧
    ((∃ N : ℤ, a = N) ∨ (n ≠ 0 ∧ a < 2 ^ 23)) := by
  have hu : (0 : ℚ) < 2 ^ ((n : ℤ) - 149) := zpow_pos two_pos _
  refine ⟨signFactor neg * (val v / 2 ^ ((n : ℤ) - 149)), ?_, ?_⟩
  · rw [← mul_assoc, signFactor_mul_self, one_mul, div_mul_cancel₀ _ hu.ne']
  · rcases val_integer_or_small v n with ⟨N, hN⟩ | ⟨hn, hlt⟩
    · refine .inl ⟨(if neg then -1 else 1) * N, ?_⟩
      rw [hN, mul_div_cancel_right₀ _ hu.ne', signFactor]
      push_cast
      rfl
    · refine .inr ⟨hn, (le_abs_self _).trans_lt ?_⟩
      rwa [abs_mul, abs_signFactor, one_mul, abs_div, abs_of_pos hu, div_lt_iff₀ hu]

/-- No number of units that a binary32 value has is nearer than `M`: an integer is not, and a smaller value is beyond `2^23`
units, which is an integer. -/
theorem RoundsTo.nearest_units {M : Nat} {y a : ℚ} (h : RoundsTo M y)
    (ha : (∃ N : ℤ, a = N) ∨ (2 ^ 23 ≤ y ∧ a < 2 ^ 23)) :
    |(M : ℚ) - y| ≤ |a - y| ∧ (|a - y| = |(M : ℚ) - y| → a = M ∨ M % 2 = 0) := by
  rcases ha with ⟨N, rfl⟩ | ⟨hy, hlt⟩
  · exact h.nearest N
  · obtain ⟨hle, -⟩ := h.nearest (2 ^ 23)
    have hfar : |(M : ℚ) - y| < |a - y| := by
      rw [Int.cast_pow, Int.cast_ofNat, abs_of_nonpos (sub_nonpos.mpr hy)] at hle
      rw [abs_of_neg (a := a - y) (by linarith)]
      linarith
    exact ⟨hfar.le, fun he => absurd he hfar.ne'⟩

/-- No binary32 value is nearer to `y` units than `M` units are, and where another is as near, `M` is even. -/
theorem RoundsTo.nearest_val {n M : Nat} {y : ℚ} (h : RoundsTo M y) (hn : n = 0 ∨ 2 ^ 23 ≤ y) (neg : Bool) (v : Word) :
    let u : ℚ := 2 ^ ((n : ℤ) - 149)
    |signFactor neg * M * u - signFactor neg * y * u| ≤ |val v - signFactor neg * y * u| ∧
    (val v ≠ signFactor neg * M * u →
      |val v - signFactor neg * y * u| = |signFactor neg * M * u - signFactor neg * y * u| → M % 2 = 0) := by
  intro u
  have hu : 0 < u := zpow_pos two_pos _
  have hscale (a : ℚ) : |signFactor neg * a * u - signFactor neg * y * u| = |a - y| * u := by
    rw [← sub_mul, ← mul_sub, abs_mul, abs_mul, abs_signFactor, one_mul, abs_of_pos hu]
  obtain ⟨a, hval, hcases⟩ := exists_units v n neg
  obtain ⟨hle, htie⟩ := h.nearest_units (hcases.imp id (And.imp_left hn.resolve_left))
  rw [hval, hscale, hscale]
  refine ⟨by gcongr, fun hne he => (htie (mul_right_cancel₀ hu.ne' he)).resolve_left fun haM => hne (by rw [haM])⟩

/-- `nearestWord` gives the word with the rounded magnitude and the sign asked for. -/
theorem nearestWord_eq_some {neg : Bool} {num den : Nat} {w : Word} (h : nearestWord neg num den = some w) :
    ∃ m, nearestMagnitude num den = some m ∧ w = wordOf neg m := by
  unfold nearestWord at h
  split at h
  case h_1 m hm => exact ⟨m, hm, (Option.some.inj h).symm⟩
  case h_2 => cases h

/-- The units of the last place are the word's: its bit 0 is the parity of `M`. -/
theorem getLsbD_zero_wordOf {n M : Nat} (hlt : n * 2 ^ 23 + M < 2 ^ 31) (hM : M % 2 = 0) (neg : Bool) :
    (wordOf neg (n * 2 ^ 23 + M)).getLsbD 0 = false := by
  rw [BitVec.getLsbD, toNat_wordOf hlt, Nat.testBit_zero, decide_eq_false_iff_not]
  split <;> omega

/-- Settles O58: the word's magnitude is the fraction rounded to an integer number of units of the last place. -/
theorem decimalOperandsRoundToNearest : Obligations.DecimalOperandsRoundToNearest := by
  intro neg num den w hden h
  obtain ⟨m, hm, rfl⟩ := nearestWord_eq_some h
  obtain ⟨n, M, rfl, hfin, hM, hround, hnorm⟩ := nearestMagnitude_roundedBits hden.ne' hm
  obtain ⟨hwfin, hwsign, hwval⟩ := val_wordOf hfin hM (hnorm.imp id And.left) neg
  have hu : (2 : ℚ) ^ ((n : ℤ) - 149) ≠ 0 := zpow_ne_zero _ two_ne_zero
  have hx : (if neg then -1 else 1) * (num : ℚ) / den =
      signFactor neg * (num / den / 2 ^ ((n : ℤ) - 149)) * 2 ^ ((n : ℤ) - 149) := by
    rw [mul_assoc, div_mul_cancel₀ _ hu, mul_div_assoc, signFactor]
  have hnear := hround.nearest_val (hnorm.imp id And.right) neg
  simp only [hx, hwval]
  refine ⟨hwfin, hwsign, fun v _ => ?_, fun v _ hne he => ?_⟩
  · obtain ⟨hle, -⟩ := hnear v
    exact hle
  · obtain ⟨-, htie⟩ := hnear v
    exact getLsbD_zero_wordOf (by omega) (htie hne he) neg

end Sys2Proof.Proofs
